-- ==== Sys2Proof/Word.lean ====
section
/-! DEFINITION. The byte type. A register value or an output value is an element of [0, 2^W), where
W = `WORD_BITS` is a parameter of the block and not one fixed width, so the model writes it as the spec
does: an unsigned number, `Nat` (00_scope.md R13, 10_state.md R21). That the number lies in the range is an
invariant of the model (`Machine.State.Inv` in Safety.lean), and every register write reduces mod 2^W
(Machine/Fields.lean, `wrap`). DESIGN CHOICE, notes/assumptions/2.md: safe.
Memory has 256 cells (`MEM_SIZE`) and the register file 8 registers (`NUM_REGS`), both fixed (R10); the
model writes these numbers out. -/

namespace Sys2Proof

/-- A memory cell, an instruction byte or an operand byte: 8 bits (00_scope.md R13, 10_state.md R37). -/
abbrev Byte := BitVec 8

end Sys2Proof
end

