-- ==== Sys2Proof/Machine/Fields.lean ====
section
/-! DEFINITION. Bit fields of an opcode byte, and the width conversions between bytes and W-bit
values (00_scope.md R12 to R14, 30_encoding.md R71, R72). -/

namespace Sys2Proof

/-- `op[7:6]`, the operand count of an opcode byte (30_encoding.md R71). -/
def operandCount (op : Byte) : Nat := (op.extractLsb' 6 2).toNat

/-- `op[4] = 1`: the handler, not the engine, moves the pc (30_encoding.md R72). -/
def setsPc (op : Byte) : Bool := op.getLsbD 4

/-- `v mod 2^W`: what a register write stores (10_state.md R25). -/
def wrap (w : Nat) (v : Nat) : Nat := v % 2 ^ w

/-- `trunc_8(v)`: what a memory write stores (00_scope.md R13, 20_memory.md R52). -/
def truncByte (v : Nat) : Byte := BitVec.ofNat 8 v

/-- `zext_W(b)`: the byte as an unsigned value; no value is sign-extended (00_scope.md R13). -/
def zext (b : Byte) : Nat := b.toNat

end Sys2Proof
end

