-- ==== Sys2Proof/Config.lean ====
section
/-! DEFINITION. The parameters of the block (00_scope.md R10) as plain data: word width, load
address, unknown-opcode policy, the ALU_EXT profile and the opcode map. Their default values are in
Machine/Opcodes.lean. A machine's parameters never change while it runs (R11).
The spec leaves no result undefined (93_implementation_defined.md), so there is no free value. -/

namespace Sys2Proof

/-- The closed set of opcodes: the ten of the base table (30_encoding.md R80), then the eight of the
profile ALU_EXT (45_alu_extension.md R200). -/
inductive Opcode where
  | hlt | push | pop | prn | jmp | jeq | jne | ldi | mul | cmp
  | add | sub | and | or | xor | not | shl | shr
  deriving DecidableEq, Repr

/-- The parameter `OPCODE_MAP`: one byte per opcode (30_encoding.md R80, R81). The bytes of the
profile ALU_EXT count only while the profile is on. DESIGN CHOICE, notes/assumptions/4.md: safe. -/
structure OpcodeMap where
  hlt : Byte
  push : Byte
  pop : Byte
  prn : Byte
  jmp : Byte
  jeq : Byte
  jne : Byte
  ldi : Byte
  mul : Byte
  cmp : Byte
  add : Byte
  sub : Byte
  and : Byte
  or : Byte
  xor : Byte
  not : Byte
  shl : Byte
  shr : Byte
  deriving DecidableEq, Repr

/-- The parameter `UNKNOWN_OPCODE` (30_encoding.md R78, 40_engine.md R105). -/
inductive UnknownPolicy where
  /-- The permissive mode: an unknown opcode only moves the pc. -/
  | noop
  /-- The strict mode: an unknown opcode raises `UnknownOpcode`. -/
  | fault
  deriving DecidableEq, Repr

/-- The parameters of one machine (00_scope.md R10). -/
structure Config where
  /-- `WORD_BITS`, W. -/
  wordBits : Nat
  /-- `LOAD_ADDR`. -/
  loadAddr : Nat
  /-- `UNKNOWN_OPCODE`. -/
  unknownOpcode : UnknownPolicy
  /-- `ALU_EXT`. -/
  aluExt : Bool
  /-- `OPCODE_MAP`. -/
  opcodes : OpcodeMap
  deriving DecidableEq, Repr

end Sys2Proof
end

