-- ==== Sys2Proof/Machine/Opcodes.lean ====
section
/-! DEFINITION. The opcode table: formats, operand counts, the active profile, the default opcode map
and the default parameters (30_encoding.md R75, R78, R80, R81; 45_alu_extension.md R200; 00_scope.md R10). -/

namespace Sys2Proof

/-- The four instruction formats (30_encoding.md R75). -/
inductive Format where
  | f0 | f1r | f2ri | f2rr
  deriving DecidableEq, Repr

/-- The format of each opcode (30_encoding.md R75). -/
def Opcode.format : Opcode → Format
  | .hlt => .f0
  | .push => .f1r
  | .pop => .f1r
  | .prn => .f1r
  | .jmp => .f1r
  | .jeq => .f1r
  | .jne => .f1r
  | .ldi => .f2ri
  | .mul => .f2rr
  | .cmp => .f2rr
  | .add => .f2rr
  | .sub => .f2rr
  | .and => .f2rr
  | .or => .f2rr
  | .xor => .f2rr
  | .not => .f1r
  | .shl => .f2rr
  | .shr => .f2rr

/-- How many operand bytes a format has (30_encoding.md R75). -/
def Format.operands : Format → Nat
  | .f0 => 0
  | .f1r => 1
  | .f2ri => 2
  | .f2rr => 2

/-- How many operands the instruction table gives an opcode (30_encoding.md R81, constraint 2). -/
def Opcode.operands (o : Opcode) : Nat := o.format.operands

/-- The three jumps, whose handlers write the pc (30_encoding.md R81, constraints 3 and 4). -/
def Opcode.isJump : Opcode → Bool
  | .jmp => true
  | .jeq => true
  | .jne => true
  | .hlt => false
  | .push => false
  | .pop => false
  | .prn => false
  | .ldi => false
  | .mul => false
  | .cmp => false
  | .add => false
  | .sub => false
  | .and => false
  | .or => false
  | .xor => false
  | .not => false
  | .shl => false
  | .shr => false

/-- The opcodes of the base set (30_encoding.md R80). -/
def baseOpcodes : List Opcode := [.hlt, .push, .pop, .prn, .jmp, .jeq, .jne, .ldi, .mul, .cmp]

/-- The opcodes the profile ALU_EXT adds (45_alu_extension.md R200). -/
def extOpcodes : List Opcode := [.add, .sub, .and, .or, .xor, .not, .shl, .shr]

/-- The defined opcodes of the active profile (30_encoding.md R78). -/
def Config.active (cfg : Config) : List Opcode :=
  if cfg.aluExt then baseOpcodes ++ extOpcodes else baseOpcodes

/-- The byte a map gives an opcode. -/
def OpcodeMap.byteOf (m : OpcodeMap) : Opcode → Byte
  | .hlt => m.hlt
  | .push => m.push
  | .pop => m.pop
  | .prn => m.prn
  | .jmp => m.jmp
  | .jeq => m.jeq
  | .jne => m.jne
  | .ldi => m.ldi
  | .mul => m.mul
  | .cmp => m.cmp
  | .add => m.add
  | .sub => m.sub
  | .and => m.and
  | .or => m.or
  | .xor => m.xor
  | .not => m.not
  | .shl => m.shl
  | .shr => m.shr

/-- The default `OPCODE_MAP` (30_encoding.md R80; 45_alu_extension.md R200 for the profile).
PRESUMED, notes/assumptions/3.md: the spec takes these bytes from general knowledge of the LS-8; unsafe. -/
def OpcodeMap.default : OpcodeMap where
  hlt := 0x01#8
  push := 0x45#8
  pop := 0x46#8
  prn := 0x47#8
  jmp := 0x54#8
  jeq := 0x55#8
  jne := 0x56#8
  ldi := 0x82#8
  mul := 0xA2#8
  cmp := 0xA7#8
  add := 0xA0#8
  sub := 0xA1#8
  and := 0xA8#8
  or := 0xAA#8
  xor := 0xAB#8
  not := 0x69#8
  shl := 0xAC#8
  shr := 0xAD#8

/-- The default parameters (00_scope.md R10). -/
def Config.default : Config where
  wordBits := 8
  loadAddr := 0
  unknownOpcode := .noop
  aluExt := false
  opcodes := OpcodeMap.default

end Sys2Proof
end

