-- ==== Sys2Proof/Syntax.lean ====
section
/-! DEFINITION. The instructions: one constructor per row of spec/opcode_table.json, with whole
operand bytes as operands (30_encoding.md R75, R76). -/

namespace Sys2Proof

/-- The instruction set. `r`, `a`, `b` are register indices held as whole operand bytes, not masked
to three bits (10_state.md R24); `v` is an immediate byte (30_encoding.md R76). -/
inductive Instr where
  /-- HALT (40_engine.md R108). -/
  | hlt
  /-- PUSH (43_stack.md R160). -/
  | push (r : Byte)
  /-- POP (43_stack.md R162). -/
  | pop (r : Byte)
  /-- PRINT_REGISTER (41_load_print.md R122). -/
  | prn (r : Byte)
  /-- JUMP (44_compare_branch.md R182). -/
  | jmp (r : Byte)
  /-- JUMP_IF_EQUAL (44_compare_branch.md R184). -/
  | jeq (r : Byte)
  /-- JUMP_IF_NOT_EQUAL (44_compare_branch.md R186). -/
  | jne (r : Byte)
  /-- LOAD_IMMEDIATE (41_load_print.md R120). -/
  | ldi (r v : Byte)
  /-- MULTIPLY (42_alu.md R142). -/
  | mul (a b : Byte)
  /-- COMPARE (44_compare_branch.md R180). -/
  | cmp (a b : Byte)
  /-- ADD, profile ALU_EXT (45_alu_extension.md R202). -/
  | add (a b : Byte)
  /-- SUB, profile ALU_EXT (R204). -/
  | sub (a b : Byte)
  /-- AND, profile ALU_EXT (R206). -/
  | and (a b : Byte)
  /-- OR, profile ALU_EXT (R208). -/
  | or (a b : Byte)
  /-- XOR, profile ALU_EXT (R210). -/
  | xor (a b : Byte)
  /-- NOT, profile ALU_EXT (R212). -/
  | not (r : Byte)
  /-- SHL, profile ALU_EXT (R214). -/
  | shl (a b : Byte)
  /-- SHR, profile ALU_EXT (R216). -/
  | shr (a b : Byte)
  deriving DecidableEq, Repr

/-- The opcode of an instruction. -/
def Instr.opcode : Instr → Opcode
  | .hlt => .hlt
  | .push _ => .push
  | .pop _ => .pop
  | .prn _ => .prn
  | .jmp _ => .jmp
  | .jeq _ => .jeq
  | .jne _ => .jne
  | .ldi _ _ => .ldi
  | .mul _ _ => .mul
  | .cmp _ _ => .cmp
  | .add _ _ => .add
  | .sub _ _ => .sub
  | .and _ _ => .and
  | .or _ _ => .or
  | .xor _ _ => .xor
  | .not _ => .not
  | .shl _ _ => .shl
  | .shr _ _ => .shr

end Sys2Proof
end

