-- ==== Sys2Proof/WellFormed.lean ====
section
/-! DEFINITION. Which parameters the spec allows (00_scope.md R10, 30_encoding.md R81), and which
instructions belong to a machine. Every operand byte is well formed: a register index of 8 or more is
an error of execution, not of encoding (10_state.md R24, 30_encoding.md R76). -/

namespace Sys2Proof

/-- `WORD_BITS >= 8` (00_scope.md R10). -/
abbrev Config.WidthOk (cfg : Config) : Prop := 8 ≤ cfg.wordBits

/-- `LOAD_ADDR` lies in [0, N) (00_scope.md R10). -/
abbrev Config.LoadAddrOk (cfg : Config) : Prop := cfg.loadAddr < 256

/-- Constraint 1 of 30_encoding.md R81, over the active profile: the bytes are pairwise distinct. -/
abbrev Config.DistinctOk (cfg : Config) : Prop := (cfg.active.map cfg.opcodes.byteOf).Nodup

/-- Constraint 2 of R81: each byte's `op[7:6]` is the instruction's operand count. -/
abbrev Config.CountsOk (cfg : Config) : Prop :=
  ∀ o ∈ cfg.active, operandCount (cfg.opcodes.byteOf o) = o.operands

/-- Constraints 3 and 4 of R81: `op[4] = 1` for the three jumps. -/
abbrev Config.JumpBitOk (cfg : Config) : Prop :=
  ∀ o ∈ cfg.active, o.isJump = true → setsPc (cfg.opcodes.byteOf o) = true

/-- Constraint 5 of R81: `op[4] = 0` for every other instruction. -/
abbrev Config.AdvanceBitOk (cfg : Config) : Prop :=
  ∀ o ∈ cfg.active, o.isJump = false → setsPc (cfg.opcodes.byteOf o) = false

/-- The parameters are ones the spec allows a machine. -/
abbrev Config.WellFormed (cfg : Config) : Prop :=
  cfg.WidthOk ∧ cfg.LoadAddrOk ∧ cfg.DistinctOk ∧ cfg.CountsOk ∧ cfg.JumpBitOk ∧ cfg.AdvanceBitOk

/-- The instruction belongs to the machine: its opcode is one of the active profile
(30_encoding.md R78). -/
abbrev Instr.WellFormed (cfg : Config) (i : Instr) : Prop := i.opcode ∈ cfg.active

end Sys2Proof
end

