-- ==== Sys2Proof/Decode.lean ====
section
/-! DEFINITION. The decoder, total on any bytes and rejecting by name, then the encoder, both from
30_encoding.md R70 to R84; then the decoder on words numbered as spec/opcode_table.json numbers them. -/

namespace Sys2Proof

/-- Why the decoder gives no instruction. -/
inductive DecodeReject where
  /-- The byte is no defined opcode of the active profile (30_encoding.md R78). -/
  | unknownOpcode (op : Byte)
  /-- Fewer than the three bytes that every fetch reads (30_encoding.md R77). -/
  | tooFewBytes
  deriving DecidableEq, Repr

/-- Opcode identity is the full byte: the opcode of the active profile whose byte it is
(30_encoding.md R73, R78). -/
def Config.opcodeOf (cfg : Config) (op : Byte) : Option Opcode :=
  cfg.active.find? (fun o => cfg.opcodes.byteOf o == op)

/-- The instruction an opcode forms with the two bytes after it (30_encoding.md R75). -/
def assemble : Opcode → Byte → Byte → Instr
  | .hlt, _, _ => .hlt
  | .push, b1, _ => .push b1
  | .pop, b1, _ => .pop b1
  | .prn, b1, _ => .prn b1
  | .jmp, b1, _ => .jmp b1
  | .jeq, b1, _ => .jeq b1
  | .jne, b1, _ => .jne b1
  | .ldi, b1, b2 => .ldi b1 b2
  | .mul, b1, b2 => .mul b1 b2
  | .cmp, b1, b2 => .cmp b1 b2
  | .add, b1, b2 => .add b1 b2
  | .sub, b1, b2 => .sub b1 b2
  | .and, b1, b2 => .and b1 b2
  | .or, b1, b2 => .or b1 b2
  | .xor, b1, b2 => .xor b1 b2
  | .not, b1, _ => .not b1
  | .shl, b1, b2 => .shl b1 b2
  | .shr, b1, b2 => .shr b1 b2

/-- The decoder on the three fetched bytes (40_engine.md R102, R103; 30_encoding.md R83). -/
def decode (cfg : Config) (op b1 b2 : Byte) : Except DecodeReject Instr :=
  match cfg.opcodeOf op with
  | some o => .ok (assemble o b1 b2)
  | none => .error (.unknownOpcode op)

/-- The decoder on a byte sequence: its first three bytes are what a fetch reads (30_encoding.md R77). -/
def decodeBytes (cfg : Config) : List Byte → Except DecodeReject Instr
  | op :: b1 :: b2 :: _ => decode cfg op b1 b2
  | _ => .error .tooFewBytes

/-- The operand bytes of an instruction, in increasing addresses (30_encoding.md R75, R84). -/
def Instr.operandBytes : Instr → List Byte
  | .hlt => []
  | .push r => [r]
  | .pop r => [r]
  | .prn r => [r]
  | .jmp r => [r]
  | .jeq r => [r]
  | .jne r => [r]
  | .ldi r v => [r, v]
  | .mul a b => [a, b]
  | .cmp a b => [a, b]
  | .add a b => [a, b]
  | .sub a b => [a, b]
  | .and a b => [a, b]
  | .or a b => [a, b]
  | .xor a b => [a, b]
  | .not r => [r]
  | .shl a b => [a, b]
  | .shr a b => [a, b]

/-- The bytes of an instruction: its opcode byte, then its operand bytes (30_encoding.md R70, R84). -/
def encode (cfg : Config) (i : Instr) : List Byte :=
  cfg.opcodes.byteOf i.opcode :: i.operandBytes

/-- The three bytes of a table word: bit 0 is the least significant bit of the first byte, a later
byte's bits count on from it, and every bit from `nbits` up is 0. -/
def tableByte (nbits w k : Nat) : Byte := BitVec.ofNat 8 (w % 2 ^ nbits / 2 ^ (8 * k))

/-- The parameters of a machine that has every row of spec/opcode_table.json: the default ones with
the profile ALU_EXT on. -/
def Config.allRows : Config :=
  { Config.default with aluExt := true }

/-- The instruction the decoder reads from a table word, with every row's profile on. -/
def decodeTableWord (nbits w : Nat) : Option Instr :=
  (decode Config.allRows (tableByte nbits w 0) (tableByte nbits w 1) (tableByte nbits w 2)).toOption

/-- The same parameters, with the profile ALU_EXT on if that makes `op` a defined opcode: what a
machine must have for an instruction of the profile to run on it (30_encoding.md R78). -/
def Config.withProfileFor (cfg : Config) (op : Byte) : Config :=
  if (cfg.opcodeOf op).isSome then cfg
  else if (Config.opcodeOf { cfg with aluExt := true } op).isSome then { cfg with aluExt := true }
  else cfg

end Sys2Proof
end

