-- ==== Sys2Proof/Machine/State.lean ====
section
/-! DEFINITION. The state of the machine as plain data (10_state.md R20), what can stop a step, and the
state right after engine construction (10_state.md R41, 70_reset_and_hazards.md R260). -/

namespace Sys2Proof.Machine

/-- Memory as the cells that differ from what an unlisted address reads as, addresses strictly rising
(`Memory.wf`). -/
abbrev Memory := List Host.Cell

/-- The engine state (10_state.md R34, 40_engine.md R100). -/
inductive EngineState where
  | running | halted | faulted
  deriving DecidableEq, Repr

/-- The operations of the ALU (42_alu.md R140, 45_alu_extension.md R201). -/
inductive AluOp where
  | add | mul | sub | and | or | xor | not | shl | shr
  deriving DecidableEq, Repr

/-- The four fatal errors, each with what its record's detail says (60_exceptions.md R230 to R235). -/
inductive FatalError where
  | outOfBounds (address : Nat)
  | invalidRegister (index : Nat)
  | unsupportedOperation (op : AluOp)
  | unknownOpcode (op : Byte)
  deriving DecidableEq, Repr

/-- The `detail` of a fault record (60_exceptions.md R231). -/
inductive Detail where
  | address (a : Nat)
  | register (i : Nat)
  | operation (op : AluOp)
  | byte (b : Byte)
  deriving DecidableEq, Repr

/-- The fault record {code, pc, opcode, detail} (10_state.md R34, 60_exceptions.md R231). -/
structure FaultRecord where
  code : Nat
  pc : Nat
  /-- `none` when the opcode fetch itself failed. -/
  opcode : Option Byte
  detail : Detail
  deriving DecidableEq, Repr

/-- The machine (10_state.md R20), and beside it the parameters it was constructed with
(00_scope.md R10), which no step changes. DESIGN CHOICE, notes/assumptions/1.md: the parameters are
held in the state so that one step function covers every machine the spec allows; safe. -/
structure State where
  /-- The parameters of this machine (00_scope.md R10). -/
  cfg : Config
  /-- Memory, 256 cells of 8 bits (10_state.md R37). -/
  mem : Memory
  /-- The register file; `x[7]` is the stack pointer (10_state.md R21, R22). -/
  x : Vector Nat 8
  /-- The flags register, laid out `00000LGE` (10_state.md R31). -/
  fl : BitVec 8
  /-- The program counter, an unbounded natural (10_state.md R27). -/
  pc : Nat
  /-- The halt flag (10_state.md R33). -/
  halt : Bool
  /-- The engine state (10_state.md R34). -/
  state : EngineState
  /-- The fault record, present in FAULTED (10_state.md R34). -/
  fault : Option FaultRecord
  /-- The output sink, oldest value first (10_state.md R35). -/
  out : List Nat
  deriving DecidableEq, Repr

/-- Why a step stops. The spec's fatal errors are not here: they are entered as the state FAULTED
(40_engine.md R107), a next state. -/
inductive Fault where
  /-- Raised by `step` alone, on a machine in HALTED: the engine has no step there (40_engine.md R100,
  60_exceptions.md R249). Safe: no behaviour is added. -/
  | engineHalted
  /-- Raised by `step` alone, on a machine in FAULTED, with the fault record it holds: the engine has no
  step there (40_engine.md R100, 60_exceptions.md R240). Safe: no behaviour is added. -/
  | engineFaulted (record : Option FaultRecord)
  deriving DecidableEq, Repr

/-- Why a step is refused. -/
inductive Refusal where
  /-- Raised by an arm of `exec` whose instruction has no meaning in the model; no arm does. Safe. -/
  | notModelled (mnemonic : String)
  deriving DecidableEq, Repr

/-- What an instruction's meaning answers. -/
abbrev Result := Host.Outcome State Fault Refusal

/-- Engine construction: the reset values for given parameters (10_state.md R41,
70_reset_and_hazards.md R260). Every value is the spec's. -/
def State.construct (cfg : Config) : State where
  cfg := cfg
  mem := []
  x := Vector.replicate 8 0
  fl := 0#8
  pc := cfg.loadAddr
  halt := false
  state := .running
  fault := none
  out := []

/-- The machine right after reset, with the default parameters (00_scope.md R10). -/
def State.reset : State := State.construct Config.default

end Sys2Proof.Machine
end

