-- ==== Sys2Proof/Machine/Ops.lean ====
section
/-! DEFINITION. The named operations over memory, the pc, the output sink and the engine state; taking
a fatal error; and the parts of the engine's cycle that stand around an instruction's handler
(00_scope.md R14, 20_memory.md R51, R52, 40_engine.md R101 to R107, 60_exceptions.md R231). -/

namespace Sys2Proof.Machine

/-! ### Memory -/

/-- What an address that is not listed reads as: memory is zero-filled at construction
(10_state.md R41). -/
def Memory.blank : Byte := 0#8

/-- The canonical form: addresses strictly rising, all inside memory, and no cell listed that holds
what an unlisted address reads as. -/
abbrev Memory.wf (m : Memory) : Prop :=
  m.Pairwise (fun c d => c.1 < d.1) ∧ ∀ c ∈ m, c.1 < 256 ∧ c.2 ≠ Memory.blank

/-- The byte a cell holds. -/
def Memory.peek : Memory → Nat → Byte
  | [], _ => Memory.blank
  | (a, b) :: m, k => if a = k then b else Memory.peek m k

/-- The memory with one cell replaced, in canonical form. -/
def Memory.poke : Memory → Nat → Byte → Memory
  | [], k, v => if v = Memory.blank then [] else [(k, v)]
  | (a, b) :: m, k, v =>
    if a < k then (a, b) :: Memory.poke m k v
    else if a = k then (if v = Memory.blank then m else (k, v) :: m)
    else (if v = Memory.blank then (a, b) :: m else (k, v) :: (a, b) :: m)

/-- The memory with bytes placed from an address upwards; a byte that would fall outside memory is
left out. -/
def Memory.place : Memory → Nat → List Byte → Memory
  | m, _, [] => m
  | m, k, b :: bs => Memory.place (if k < 256 then Memory.poke m k b else m) (k + 1) bs

/-- `MemRead(a, 1)` (20_memory.md R51). -/
def memRead (s : State) (a : Nat) : Except FatalError Byte :=
  if a < 256 then .ok (Memory.peek s.mem a) else .error (.outOfBounds a)

/-- `MemWrite(a, 1, v)`, with the value cut to one byte (20_memory.md R52). -/
def memWrite (s : State) (a : Nat) (v : Nat) : Except FatalError State :=
  if a < 256 then .ok { s with mem := Memory.poke s.mem a (truncByte v) }
  else .error (.outOfBounds a)

/-! ### Single fields -/

/-- `pc <- t` (00_scope.md R14). -/
def setPc (s : State) (t : Nat) : State := { s with pc := t }

/-- `fl <- f`, the whole register (00_scope.md R14). -/
def setFlags (s : State) (f : BitVec 8) : State := { s with fl := f }

/-- `halt <- true` (00_scope.md R14). -/
def setHalt (s : State) : State := { s with halt := true }

/-- `emit(v)`: append to the output sink (00_scope.md R14, 10_state.md R35). -/
def emit (s : State) (v : Nat) : State := { s with out := s.out ++ [v] }

/-! ### Fatal errors -/

/-- The code of a fatal error (60_exceptions.md R232 to R235). -/
def FatalError.code : FatalError → Nat
  | .outOfBounds _ => 1
  | .invalidRegister _ => 2
  | .unsupportedOperation _ => 3
  | .unknownOpcode _ => 4

/-- The detail a fatal error records (60_exceptions.md R231). -/
def FatalError.detail : FatalError → Detail
  | .outOfBounds a => .address a
  | .invalidRegister i => .register i
  | .unsupportedOperation op => .operation op
  | .unknownOpcode b => .byte b

/-- The opcode byte a fault record names: the byte at the pc, or none when the pc is outside memory
(60_exceptions.md R231). DEDUCED, notes/assumptions/16.md: the faulting instruction has committed no
write, so the byte at the pc is the byte it fetched; safe. -/
def opcodeAtPc (s : State) : Option Byte :=
  if s.pc < 256 then some (Memory.peek s.mem s.pc) else none

/-- The fault record of an error raised in the state before the step (60_exceptions.md R231). -/
def faultRecord (e : FatalError) (s : State) : FaultRecord where
  code := e.code
  pc := s.pc
  opcode := opcodeAtPc s
  detail := e.detail

/-- Taking a fatal error, the one way a fault is entered: FAULTED with the record, every other piece
of state as it was before the step (40_engine.md R107, 60_exceptions.md R231, R239). There is no
return from it (60_exceptions.md R240). DESIGN CHOICE of the spec (D13), notes/assumptions/15.md; unsafe. -/
def raise (e : FatalError) (s : State) : State :=
  { s with state := .faulted, fault := some (faultRecord e s) }

/-- The outcome of a handler run in state `s`: its state, or the fatal error taken in `s` itself, so
that no write of a failing instruction is committed (00_scope.md R14, 40_engine.md R107). -/
def commit (s : State) : Except FatalError State → Result
  | .ok t => .next t
  | .error e => .next (raise e s)

/-! ### The engine's cycle around a handler -/

/-- Fetch: three bounds-checked reads in order, for every instruction (40_engine.md R101). -/
def fetch (s : State) : Except FatalError (Byte × Byte × Byte) :=
  match memRead s s.pc with
  | .error e => .error e
  | .ok op =>
    match memRead s (s.pc + 1) with
    | .error e => .error e
    | .ok b1 =>
      match memRead s (s.pc + 2) with
      | .error e => .error e
      | .ok b2 => .ok (op, b1, b2)

/-- Advance: unless the opcode sets the pc, the pc is the pc at fetch plus the decoded size
(40_engine.md R104). -/
def advance (op : Byte) (pc : Nat) (s : State) : State :=
  if setsPc op then s else setPc s (pc + operandCount op + 1)

/-- Halt transition: a set halt flag at the end of a step makes the engine HALTED (40_engine.md R106,
R109). -/
def haltTransition (s : State) : State :=
  if s.halt then { s with state := .halted } else s

/-- The end of a step that began at `pc` with opcode byte `op`, after the handler's state: nothing more
if the handler faulted (40_engine.md R107), else advance and halt transition (R104, R106). -/
def endStep (op : Byte) (pc : Nat) (t : State) : State :=
  match t.state with
  | .faulted => t
  | .running => haltTransition (advance op pc t)
  | .halted => haltTransition (advance op pc t)

/-- The end of a step over a handler's outcome. -/
def finish (op : Byte) (pc : Nat) : Result → Result
  | .next t => .next (endStep op pc t)
  | .fault r => .fault r
  | .refused r => .refused r

/-- An unknown opcode: under `noop` the pc moves by the decoded size whatever bit 4 is, under `fault`
it raises `UnknownOpcode` (40_engine.md R105). DESIGN CHOICE of the spec (D6, C1),
notes/assumptions/7.md; unsafe. -/
def unknownStep (op : Byte) (s : State) : Result :=
  match s.cfg.unknownOpcode with
  | .noop => .next (haltTransition (setPc s (s.pc + operandCount op + 1)))
  | .fault => .next (raise (.unknownOpcode op) s)

end Sys2Proof.Machine
end

