-- ==== Sys2Proof/Machine/Operands.lean ====
section
/-! DEFINITION. The operand forms: a register named by a whole byte, checked when it is read or written,
and an immediate byte (10_state.md R22 to R25, 30_encoding.md R76). There is no other form. -/

namespace Sys2Proof.Machine

/-- `x[i]`: the register, or `InvalidRegister(i)` if `i >= 8`; the index is not masked
(10_state.md R24, 00_scope.md R14). -/
def readReg (s : State) (i : Byte) : Except FatalError Nat :=
  if h : i.toNat < 8 then .ok (s.x[i.toNat]'h) else .error (.invalidRegister i.toNat)

/-- `x[i] <- v`: stores `v mod 2^W`, with the same check (10_state.md R24, R25). -/
def writeReg (s : State) (i : Byte) (v : Nat) : Except FatalError State :=
  if h : i.toNat < 8 then .ok { s with x := s.x.set i.toNat (wrap s.cfg.wordBits v) h }
  else .error (.invalidRegister i.toNat)

/-- The stack pointer, register 7 (10_state.md R22). -/
def sp (s : State) : Nat := s.x[7]

/-- A write of the stack pointer, register 7 itself (10_state.md R22, R25). -/
def setSp (s : State) (v : Nat) : State := { s with x := s.x.set 7 (wrap s.cfg.wordBits v) }

/-- The immediate operand: the whole byte, zero-extended (30_encoding.md R76). -/
def immediate (v : Byte) : Nat := zext v

end Sys2Proof.Machine
end

