-- ==== Sys2Proof/Machine/Alu.lean ====
section
/-! DEFINITION. The ALU as a pure function (42_alu.md R140, R141, R143; 45_alu_extension.md R201), the two
shapes in which a handler calls it, and MUL (42_alu.md R142). -/

namespace Sys2Proof.Machine

/-- The supported set: ADD and MUL in the base profile, all nine under ALU_EXT (42_alu.md R141). -/
def AluOp.supported (cfg : Config) : AluOp → Bool
  | .add => true
  | .mul => true
  | .sub => cfg.aluExt
  | .and => cfg.aluExt
  | .or => cfg.aluExt
  | .xor => cfg.aluExt
  | .not => cfg.aluExt
  | .shl => cfg.aluExt
  | .shr => cfg.aluExt

/-- The value of each operation on unsigned W-bit values (42_alu.md R140, 45_alu_extension.md R201). SUB
is the difference as an integer and its non-negative remainder (00_scope.md R13). -/
def aluValue (w : Nat) : AluOp → Nat → Nat → Nat
  | .add, s, t => (s + t) % 2 ^ w
  | .mul, s, t => (s * t) % 2 ^ w
  | .sub, s, t => (((s : Int) - (t : Int)) % ((2 ^ w : Nat) : Int)).toNat
  | .and, s, t => s &&& t
  | .or, s, t => s ||| t
  | .xor, s, t => s ^^^ t
  | .not, s, _ => 2 ^ w - 1 - s
  | .shl, s, t => (s * 2 ^ t) % 2 ^ w
  | .shr, s, t => s / 2 ^ t

/-- The ALU: the value, or `UnsupportedOperation` outside the supported set (42_alu.md R140, R141). -/
def alu (cfg : Config) (op : AluOp) (s t : Nat) : Except FatalError Nat :=
  if op.supported cfg then .ok (aluValue cfg.wordBits op s t) else .error (.unsupportedOperation op)

/-- A two-operand ALU instruction: reads `x[a]`, then `x[b]`, then writes `x[a]` (42_alu.md R142). -/
def aluTwo (op : AluOp) (a b : Byte) (s : State) : Except FatalError State := do
  let u ← readReg s a
  let v ← readReg s b
  let r ← alu s.cfg op u v
  writeReg s a r

/-- A one-operand ALU instruction: reads and writes `x[r]` (45_alu_extension.md R212). -/
def aluOne (op : AluOp) (r : Byte) (s : State) : Except FatalError State := do
  let u ← readReg s r
  let v ← alu s.cfg op u 0
  writeReg s r v

/-- MUL a, b (42_alu.md R142). -/
def execMul (a b : Byte) (s : State) : Result := commit s (aluTwo .mul a b s)

end Sys2Proof.Machine
end

