-- ==== Sys2Proof/Machine/AluExtension.lean ====
section
/-! DEFINITION. The instructions of the profile ALU_EXT (45_alu_extension.md). PRESUMED,
notes/assumptions/5.md: the whole profile is general knowledge of the LS-8; unsafe. The decoder yields
them only while the profile is on (30_encoding.md R78). -/

namespace Sys2Proof.Machine

/-- ADD a, b (45_alu_extension.md R202). -/
def execAdd (a b : Byte) (s : State) : Result := commit s (aluTwo .add a b s)

/-- SUB a, b (45_alu_extension.md R204). -/
def execSub (a b : Byte) (s : State) : Result := commit s (aluTwo .sub a b s)

/-- AND a, b (45_alu_extension.md R206). -/
def execAnd (a b : Byte) (s : State) : Result := commit s (aluTwo .and a b s)

/-- OR a, b (45_alu_extension.md R208). -/
def execOr (a b : Byte) (s : State) : Result := commit s (aluTwo .or a b s)

/-- XOR a, b (45_alu_extension.md R210). -/
def execXor (a b : Byte) (s : State) : Result := commit s (aluTwo .xor a b s)

/-- NOT r (45_alu_extension.md R212). -/
def execNot (r : Byte) (s : State) : Result := commit s (aluOne .not r s)

/-- SHL a, b (45_alu_extension.md R214). -/
def execShl (a b : Byte) (s : State) : Result := commit s (aluTwo .shl a b s)

/-- SHR a, b (45_alu_extension.md R216). -/
def execShr (a b : Byte) (s : State) : Result := commit s (aluTwo .shr a b s)

end Sys2Proof.Machine
end

