-- ==== Sys2Proof/Machine/Flags.lean ====
section
/-! DEFINITION. The flags register: its three bits and the one computation that writes it
(10_state.md R29 to R31, 44_compare_branch.md R180). -/

namespace Sys2Proof.Machine

/-- E, equal: bit 0 (10_state.md R31). -/
def flagE (fl : BitVec 8) : Bool := fl.getLsbD 0

/-- G, greater-than: bit 1 (10_state.md R31). -/
def flagG (fl : BitVec 8) : Bool := fl.getLsbD 1

/-- L, less-than: bit 2 (10_state.md R31). -/
def flagL (fl : BitVec 8) : Bool := fl.getLsbD 2

/-- The register `00000LGE` (10_state.md R31).
PRESUMED, notes/assumptions/13.md: the layout is the LS-8's; no instruction exposes it; safe. -/
def packFlags (l e g : Bool) : BitVec 8 :=
  BitVec.ofNat 8 (4 * l.toNat + 2 * g.toNat + e.toNat)

/-- The relational outcome of two register values, a wholesale value of the flags
(44_compare_branch.md R180). The comparison is unsigned: DESIGN CHOICE of the spec (D12),
notes/assumptions/14.md; unsafe. -/
def compareFlags (s t : Nat) : BitVec 8 :=
  packFlags (decide (s < t)) (decide (s = t)) (decide (s > t))

end Sys2Proof.Machine
end

