-- ==== Sys2Proof/Machine/CompareBranch.lean ====
section
/-! DEFINITION. CMP and the three jumps (44_compare_branch.md). The jumps' opcodes set the pc, so each
handler writes it on every path (40_engine.md R104). -/

namespace Sys2Proof.Machine

/-- CMP a, b: overwrites the whole flags register with the relation of the register contents
(44_compare_branch.md R180, R181). -/
def execCmp (a b : Byte) (s : State) : Result :=
  commit s (do
    let u ← readReg s a
    let v ← readReg s b
    .ok (setFlags s (compareFlags u v)))

/-- The taken jump: `pc <- x[r]` (44_compare_branch.md R182). -/
def jumpTo (r : Byte) (s : State) : Except FatalError State := do
  let t ← readReg s r
  .ok (setPc s t)

/-- A conditional jump: taken, or the handler's own `pc <- pc + 2`; the register is read only when the
jump is taken (44_compare_branch.md R184, R186). DESIGN CHOICE of the spec (D7, D8),
notes/assumptions/11.md; unsafe. -/
def jumpIf (taken : Bool) (r : Byte) (s : State) : Except FatalError State :=
  if taken then jumpTo r s else .ok (setPc s (s.pc + 2))

/-- JMP r (44_compare_branch.md R182). -/
def execJmp (r : Byte) (s : State) : Result := commit s (jumpTo r s)

/-- JEQ r: taken when E = 1 (44_compare_branch.md R184). -/
def execJeq (r : Byte) (s : State) : Result := commit s (jumpIf (flagE s.fl) r s)

/-- JNE r: taken when E = 0 (44_compare_branch.md R186). -/
def execJne (r : Byte) (s : State) : Result := commit s (jumpIf (!flagE s.fl) r s)

end Sys2Proof.Machine
end

