-- ==== Sys2Proof/Machine/Control.lean ====
section
/-! DEFINITION. HLT (40_engine.md R108). -/

namespace Sys2Proof.Machine

/-- HLT: sets the halt flag. The engine then advances the pc and enters HALTED (40_engine.md R108). -/
def execHlt (s : State) : Result := commit s (.ok (setHalt s))

end Sys2Proof.Machine
end

