-- ==== Sys2Proof/Machine/LoadPrint.lean ====
section
/-! DEFINITION. LDI and PRN (41_load_print.md). -/

namespace Sys2Proof.Machine

/-- LDI r, v: `x[r] <- zext_W(v)` (41_load_print.md R120). -/
def execLdi (r v : Byte) (s : State) : Result := commit s (writeReg s r (immediate v))

/-- PRN r: emits `x[r]` (41_load_print.md R122). -/
def execPrn (r : Byte) (s : State) : Result :=
  commit s (do
    let t ← readReg s r
    .ok (emit s t))

end Sys2Proof.Machine
end

