-- ==== Sys2Proof/Machine/Stack.lean ====
section
/-! DEFINITION. PUSH and POP (43_stack.md). The stack pointer is register 7 itself (10_state.md R22). -/

namespace Sys2Proof.Machine

/-- The address PUSH stores to: register 7 decremented, wrapping mod 2^W (43_stack.md R160). -/
def pushAddress (s : State) : Nat := wrap s.cfg.wordBits (sp s + 2 ^ s.cfg.wordBits - 1)

/-- PUSH r: decrement register 7, then read `x[r]`, then store its low byte at register 7
(43_stack.md R160). `PUSH R7` stores the decremented value: DESIGN CHOICE of the spec (D9),
notes/assumptions/12.md; unsafe. -/
def execPush (r : Byte) (s : State) : Result :=
  commit s (do
    let t := setSp s (pushAddress s)
    let v ← readReg t r
    memWrite t (pushAddress s) v)

/-- POP r: read the byte at register 7, write it to `x[r]`, then increment register 7 as it is after
that write (43_stack.md R162). `POP R7` increments the popped value: DESIGN CHOICE of the spec (D10),
notes/assumptions/12.md; unsafe. -/
def execPop (r : Byte) (s : State) : Result :=
  commit s (do
    let b ← memRead s (sp s)
    let t ← writeReg s r (zext b)
    .ok (setSp t (sp t + 1)))

end Sys2Proof.Machine
end

