-- ==== Sys2Proof/Machine/Dispatch.lean ====
section
/-! DEFINITION. The dispatcher: one arm per instruction, the handler `H(op)(b1, b2)` of 40_engine.md R103 and
R109. The engine's own part of a step (fetch, decode, advance, halt transition) is in Step.lean. -/

namespace Sys2Proof.Machine

def exec (i : Instr) (s : State) : Host.Outcome State Fault Refusal :=
  match i with
  | .hlt => Sys2Proof.Machine.execHlt s
  | .push r => Sys2Proof.Machine.execPush r s
  | .pop r => Sys2Proof.Machine.execPop r s
  | .prn r => Sys2Proof.Machine.execPrn r s
  | .jmp r => Sys2Proof.Machine.execJmp r s
  | .jeq r => Sys2Proof.Machine.execJeq r s
  | .jne r => Sys2Proof.Machine.execJne r s
  | .ldi r v => Sys2Proof.Machine.execLdi r v s
  | .mul a b => Sys2Proof.Machine.execMul a b s
  | .cmp a b => Sys2Proof.Machine.execCmp a b s
  | .add a b => Sys2Proof.Machine.execAdd a b s
  | .sub a b => Sys2Proof.Machine.execSub a b s
  | .and a b => Sys2Proof.Machine.execAnd a b s
  | .or a b => Sys2Proof.Machine.execOr a b s
  | .xor a b => Sys2Proof.Machine.execXor a b s
  | .not r => Sys2Proof.Machine.execNot r s
  | .shl a b => Sys2Proof.Machine.execShl a b s
  | .shr a b => Sys2Proof.Machine.execShr a b s

end Sys2Proof.Machine
end

