-- ==== Sys2Proof/Machine/Step.lean ====
section
/-! DEFINITION. One step of the engine (40_engine.md R100, R109), and a state whose next step runs a given
table word. -/

namespace Sys2Proof.Machine

/-- One step: fetch, decode, handler, advance, halt transition (40_engine.md R109). A stopped engine has
no step (R100): the machine is stuck, under a name. -/
def step (s : State) : Host.Outcome State Fault Refusal :=
  match s.state with
  | .halted => .fault .engineHalted
  | .faulted => .fault (.engineFaulted s.fault)
  | .running =>
    match fetch s with
    | .error e => .next (raise e s)
    | .ok (op, b1, b2) =>
      match decode s.cfg op b1 b2 with
      | .ok i => finish op s.pc (exec i s)
      | .error _ => unknownStep op s

/-- `s` with the bytes of a table word stored where `step` fetches, and the profile ALU_EXT on if the
word's opcode is one of that profile (30_encoding.md R78; notes/assumptions/25.md). -/
def State.withFetchWord (s : State) (nbits w : Nat) : State :=
  { s with
    cfg := s.cfg.withProfileFor (tableByte nbits w 0)
    mem := Memory.place s.mem s.pc [tableByte nbits w 0, tableByte nbits w 1, tableByte nbits w 2] }

end Sys2Proof.Machine
end

