-- ==== Sys2Proof/Machine/Loader.lean ====
section
/-! DEFINITION. The host interface for loading: the core's `load_program` (70_reset_and_hazards.md R263) and the
external loader that reads a program image (30_encoding.md R86, 70_reset_and_hazards.md R265). -/

namespace Sys2Proof.Machine

/-- The address an overflowing load reports: the first address of the sequence, or of an empty one, that
is outside memory. DESIGN CHOICE, notes/assumptions/24.md: the spec names the error, not its address; unsafe. -/
def loadOverflowAddress (start : Nat) : Nat := max start 256

/-- `load_program(bytes, start_address)`: copies the bytes, or fails with `OutOfBounds` and writes no
cell (70_reset_and_hazards.md R263). -/
def loadProgram (bytes : List Byte) (start : Nat) (s : State) : Except FatalError State :=
  if start + bytes.length ≤ 256 then .ok { s with mem := Memory.place s.mem start bytes }
  else .error (.outOfBounds (loadOverflowAddress start))

/-- What the loader makes of one line (70_reset_and_hazards.md R265). -/
inductive LineResult where
  /-- Blank or comment-only. -/
  | skipped
  | byte (b : Byte)
  /-- `MalformedProgramLine` (60_exceptions.md R236). -/
  | malformed
  deriving DecidableEq, Repr

/-- The loader's own error (60_exceptions.md R236), with the number of the line, counted from 0. -/
inductive LoaderError where
  | malformedProgramLine (line : Nat)
  deriving DecidableEq, Repr

/-- The characters the loader trims: space, tab, line feed, carriage return. DESIGN CHOICE,
notes/assumptions/24.md: the spec says whitespace and lists none; unsafe. -/
def isBlankChar (c : Char) : Bool := c == ' ' || c == '\t' || c == '\n' || c == '\r'

/-- A binary digit. -/
def isBinaryDigit (c : Char) : Bool := c == '0' || c == '1'

/-- Step 2 of R265, first half: text from the first `#` onward is dropped. -/
def dropComment (line : List Char) : List Char := line.takeWhile (fun c => c != '#')

/-- Step 2 of R265, second half: leading and trailing whitespace is dropped. -/
def trimBlank (line : List Char) : List Char :=
  ((line.dropWhile isBlankChar).reverse.dropWhile isBlankChar).reverse

/-- A binary numeral, the first character its most significant digit (R265, step 4). -/
def binaryValue (digits : List Char) : Nat :=
  digits.foldl (fun n c => 2 * n + (if c = '1' then 1 else 0)) 0

/-- One line of a program image (70_reset_and_hazards.md R265, steps 2 to 5). -/
def readLine (line : List Char) : LineResult :=
  let text := trimBlank (dropComment line)
  if text = [] then .skipped
  else if 8 ≤ text.length && (text.take 8).all isBinaryDigit then
    .byte (BitVec.ofNat 8 (binaryValue (text.take 8)))
  else .malformed

/-- The lines of a text, cut at each line feed. -/
def splitLines : List Char → List (List Char)
  | [] => [[]]
  | c :: cs =>
    if c = '\n' then [] :: splitLines cs
    else
      match splitLines cs with
      | [] => [[c]]
      | l :: ls => (c :: l) :: ls

/-- The bytes of a list of lines, the first one numbered `n`. A malformed line is skipped, or, with the
strict policy, rejects the image (70_reset_and_hazards.md R265, steps 5 and 6). -/
def readLines (strict : Bool) : Nat → List (List Char) → Except LoaderError (List Byte)
  | _, [] => .ok []
  | n, l :: ls =>
    match readLine l with
    | .skipped => readLines strict (n + 1) ls
    | .byte b => (readLines strict (n + 1) ls).map (b :: ·)
    | .malformed =>
      if strict then .error (.malformedProgramLine n) else readLines strict (n + 1) ls

/-- The bytes of a program image (70_reset_and_hazards.md R265). -/
def readImage (strict : Bool) (text : List Char) : Except LoaderError (List Byte) :=
  readLines strict 0 (splitLines text)

end Sys2Proof.Machine
end

