-- ==== Sys2Proof/Machine/Output.lean ====
section
/-! DEFINITION. The host's rendering of the output sink: each value a decimal numeral and a line end
(41_load_print.md R123, 10_state.md R36). -/

namespace Sys2Proof.Machine

/-- One entry of the output as text: the decimal numeral, with no leading zeros and no sign, then a line
end (41_load_print.md R123). The line end is a line feed: DESIGN CHOICE, notes/assumptions/19.md; unsafe. -/
def renderEntry (v : Nat) : List Char := Nat.toDigits 10 v ++ ['\n']

/-- The whole output as text. -/
def renderOut (out : List Nat) : List Char := out.flatMap renderEntry

end Sys2Proof.Machine
end

