-- ==== Sys2Proof/Machine/Run.lean ====
section
/-! DEFINITION. A run: steps while the engine is RUNNING (40_engine.md R110), under fuel for a host. -/

namespace Sys2Proof.Machine

/-- How a run under fuel ends. Out of fuel is "not ended", never HALTED (40_engine.md R110). -/
inductive RunEnd where
  | halted (s : State)
  | faulted (s : State)
  | notEnded (s : State)
  deriving DecidableEq, Repr

/-- What a state says of the run that reached it (40_engine.md R111). -/
def runEnd (s : State) : RunEnd :=
  match s.state with
  | .halted => .halted s
  | .faulted => .faulted s
  | .running => .notEnded s

/-- A run of at most `fuel` steps. A step of a running engine always answers a next state, so the last
two arms of a RUNNING state are never taken. -/
def runFuel : Nat → State → RunEnd
  | 0, s => runEnd s
  | n + 1, s =>
    match s.state with
    | .halted => runEnd s
    | .faulted => runEnd s
    | .running =>
      match step s with
      | .next t => runFuel n t
      | .fault _ => runEnd s
      | .refused _ => runEnd s

end Sys2Proof.Machine
end

