-- ==== Sys2Proof/Safety.lean ====
section
/-! DEFINITION. The invariant of the machine: what every reachable state looks like (10_state.md R20 to R37,
40_engine.md R111, 60_exceptions.md R231), and reachability. -/

namespace Sys2Proof.Machine

/-- Every register holds an element of [0, 2^W) (10_state.md R21). -/
abbrev State.RegsOk (s : State) : Prop := ∀ i : Fin 8, s.x[i.val] < 2 ^ s.cfg.wordBits

/-- Every output value is an element of [0, 2^W) (10_state.md R35). -/
abbrev State.OutOk (s : State) : Prop := ∀ v ∈ s.out, v < 2 ^ s.cfg.wordBits

/-- Bits 7:3 of the flags read 0, and at most one of L, E, G is set (10_state.md R30 to R32). -/
abbrev State.FlagsOk (s : State) : Prop := s.fl = 0#8 ∨ s.fl = 1#8 ∨ s.fl = 2#8 ∨ s.fl = 4#8

/-- The halt flag is set exactly in HALTED (40_engine.md R106, R111). -/
abbrev State.HaltOk (s : State) : Prop := s.halt = true ↔ s.state = .halted

/-- In HALTED the pc is one past a HALT opcode (40_engine.md R111). -/
abbrev State.HaltedPcOk (s : State) : Prop :=
  s.state = .halted →
    1 ≤ s.pc ∧ s.pc ≤ 256 ∧ Memory.peek s.mem (s.pc - 1) = s.cfg.opcodes.hlt

/-- There is a fault record exactly in FAULTED, and it names the pc where the machine stands, the byte
there, and a code and detail that fit: an address outside memory, a register index of 8 or more, or, in
strict mode, a byte that is no opcode; never an unsupported operation (60_exceptions.md R231 to R235). -/
def State.faultOk (s : State) : Bool :=
  match s.fault with
  | none => s.state != .faulted
  | some r =>
    s.state == .faulted && r.pc == s.pc && r.opcode == opcodeAtPc s &&
      (match r.detail with
       | .address a => r.code == 1 && decide (256 ≤ a)
       | .register i => r.code == 2 && decide (8 ≤ i)
       | .operation _ => false
       | .byte b =>
         r.code == 4 && r.opcode == some b && s.cfg.unknownOpcode == .fault &&
           (s.cfg.opcodeOf b).isNone)

/-- The invariant. -/
abbrev State.Inv (s : State) : Prop :=
  s.cfg.WellFormed ∧ Memory.wf s.mem ∧ s.RegsOk ∧ s.OutOk ∧ s.FlagsOk ∧ s.HaltOk ∧ s.HaltedPcOk ∧
    s.faultOk = true

/-- `t` is reached from `s` by some number of steps. -/
inductive Reaches (s : State) : State → Prop where
  | here : Reaches s s
  | after (t u : State) : Reaches s t → step t = .next u → Reaches s u

end Sys2Proof.Machine
end

