-- ==== Sys2Proof/Certificates/Slice0/Obligations.lean ====
section
/-! DEFINITION. The statements for the provers. Statements about an instruction are equations between states
wherever the rule fixes every field, so that they say what changes and that nothing else does. "Log n" is
notes/assumptions/n.md: a statement whose docstring names a log entry rests on a decision of the spec or of
the model, and is entered as derived. -/

namespace Sys2Proof.Claims

open Sys2Proof.Machine

/-- The engine is RUNNING with a clear halt flag, and its three fetch reads give `op`, `b1` and `b2`. -/
abbrev Fetches (s : State) (op b1 b2 : Byte) : Prop :=
  s.state = .running ∧ s.halt = false ∧ memRead s s.pc = .ok op ∧
    memRead s (s.pc + 1) = .ok b1 ∧ memRead s (s.pc + 2) = .ok b2

/-- The exceptions of the fetch, which every instruction shares (40_engine.md R101): at pc 254 and beyond the
step raises `OutOfBounds` at the first of the three addresses that lies outside memory. -/
def FetchFaults : Prop :=
  ∀ s : State, s.state = .running → 254 ≤ s.pc →
    step s = .next (raise (.outOfBounds (max s.pc 256)) s)

/-- The registers each instruction may write (10_state.md R23; 45_alu_extension.md for the profile). -/
def writes : Instr → List Nat
  | .hlt => []
  | .push _ => [7]
  | .pop r => [7, r.toNat]
  | .prn _ => []
  | .jmp _ => []
  | .jeq _ => []
  | .jne _ => []
  | .ldi r _ => [r.toNat]
  | .mul a _ => [a.toNat]
  | .cmp _ _ => []
  | .add a _ => [a.toNat]
  | .sub a _ => [a.toNat]
  | .and a _ => [a.toNat]
  | .or a _ => [a.toNat]
  | .xor a _ => [a.toNat]
  | .not r => [r.toNat]
  | .shl a _ => [a.toNat]
  | .shr a _ => [a.toNat]

/-- The registers each instruction reads, given the flags (10_state.md R23; 45_alu_extension.md for the
profile): a conditional jump reads its register only when it is taken. -/
def reads (fl : BitVec 8) : Instr → List Nat
  | .hlt => []
  | .push r => [7, r.toNat]
  | .pop _ => [7]
  | .prn r => [r.toNat]
  | .jmp r => [r.toNat]
  | .jeq r => if flagE fl then [r.toNat] else []
  | .jne r => if flagE fl then [] else [r.toNat]
  | .ldi _ _ => []
  | .mul a b => [a.toNat, b.toNat]
  | .cmp a b => [a.toNat, b.toNat]
  | .add a b => [a.toNat, b.toNat]
  | .sub a b => [a.toNat, b.toNat]
  | .and a b => [a.toNat, b.toNat]
  | .or a b => [a.toNat, b.toNat]
  | .xor a b => [a.toNat, b.toNat]
  | .not r => [r.toNat]
  | .shl a b => [a.toNat, b.toNat]
  | .shr a b => [a.toNat, b.toNat]

/-- The register indices an instruction checks, in the order it checks them (60_exceptions.md R233). -/
def checked (fl : BitVec 8) : Instr → List Nat
  | .hlt => []
  | .push r => [r.toNat]
  | .pop r => [r.toNat]
  | .prn r => [r.toNat]
  | .jmp r => [r.toNat]
  | .jeq r => if flagE fl then [r.toNat] else []
  | .jne r => if flagE fl then [] else [r.toNat]
  | .ldi r _ => [r.toNat]
  | .mul a b => [a.toNat, b.toNat]
  | .cmp a b => [a.toNat, b.toNat]
  | .add a b => [a.toNat, b.toNat]
  | .sub a b => [a.toNat, b.toNat]
  | .and a b => [a.toNat, b.toNat]
  | .or a b => [a.toNat, b.toNat]
  | .xor a b => [a.toNat, b.toNat]
  | .not r => [r.toNat]
  | .shl a b => [a.toNat, b.toNat]
  | .shr a b => [a.toNat, b.toNat]

/-- The eight binary digits of a byte, bit 7 first (70_reset_and_hazards.md R265, step 4). -/
def binaryDigits (b : Byte) : List Char :=
  [7, 6, 5, 4, 3, 2, 1, 0].map fun k => if b.getLsbD k then '1' else '0'

/-- The byte of a line that has one. -/
def lineByte (line : List Char) : Option Byte :=
  match readLine line with
  | .byte b => some b
  | .skipped => none
  | .malformed => none

end Sys2Proof.Claims

open Sys2Proof
open Sys2Proof.Machine
open Sys2Proof.Claims

/-! ### Reset, parameters and the invariant -/

/-- R260: what construction makes of every piece of state it names, for all parameters. -/
def Obligations.ConstructionGivesResetValues : Prop :=
  ∀ cfg : Config,
    (∀ a, a < 256 → memRead (State.construct cfg) a = .ok 0#8) ∧
    (∀ (i : Nat) (h : i < 8), (State.construct cfg).x[i] = 0) ∧
    flagL (State.construct cfg).fl = false ∧ flagE (State.construct cfg).fl = false ∧
    flagG (State.construct cfg).fl = false ∧
    (State.construct cfg).halt = false ∧ (State.construct cfg).state = .running ∧
    (State.construct cfg).pc = cfg.loadAddr ∧ (State.construct cfg).out = []

/-- A machine constructed with parameters the spec allows meets the model's invariant, and so does the
machine of the default parameters. -/
def Obligations.ConstructedMachineMeetsInvariant : Prop :=
  (∀ cfg : Config, cfg.WellFormed → (State.construct cfg).Inv) ∧ State.reset.Inv

/-- The invariant of Safety.lean (memory canonical and inside its 256 cells, registers and output in
[0, 2^W), legal flags, halt flag exactly in HALTED, HALTED one past a HALT opcode, fault record exactly in
FAULTED and true to the machine) is kept by every step from every state that meets it. -/
def Obligations.EveryStepKeepsInvariant : Prop :=
  ∀ s t : State, s.Inv → step s = .next t → t.Inv

/-- Nothing of the parameters changes at run time (00_scope.md section 4; log 1: the model holds them in the
state). -/
def Obligations.StepsNeverChangeParameters : Prop :=
  ∀ s t : State, step s = .next t → t.cfg = s.cfg

/-! ### Encoding -/

/-- R71 and R73: the operand count is the byte shifted right by six, a value of 0 to 3 of which a defined
opcode has 0 to 2, and the decoder selects by the full byte: the byte of an active opcode selects that opcode,
and a byte that is the byte of none selects nothing. -/
def Obligations.OpcodeByteFields : Prop :=
  (∀ op : Byte, operandCount op = op.toNat >>> 6 ∧ operandCount op ≤ 3) ∧
  (∀ (cfg : Config) (op b1 b2 : Byte) (i : Instr), decode cfg op b1 b2 = .ok i →
    cfg.opcodes.byteOf i.opcode = op ∧ (cfg.WellFormed → operandCount op ≤ 2)) ∧
  (∀ (cfg : Config) (o : Opcode) (b1 b2 : Byte), cfg.WellFormed → o ∈ cfg.active →
    ∃ i, decode cfg (cfg.opcodes.byteOf o) b1 b2 = .ok i ∧ i.opcode = o) ∧
  (∀ (cfg : Config) (op b1 b2 : Byte), (∀ o ∈ cfg.active, cfg.opcodes.byteOf o ≠ op) →
    decode cfg op b1 b2 = .error (.unknownOpcode op))

/-- R70: a decoded instruction is the opcode byte and the `operand_count` bytes after it, 1 to 3 bytes. -/
def Obligations.InstructionLengthIsCountPlusOne : Prop :=
  ∀ (cfg : Config) (op b1 b2 : Byte) (i : Instr), cfg.WellFormed → decode cfg op b1 b2 = .ok i →
    encode cfg i = [op, b1, b2].take (operandCount op + 1) ∧
    (encode cfg i).length = operandCount op + 1 ∧
    1 ≤ (encode cfg i).length ∧ (encode cfg i).length ≤ 3

/-- Decoding an encoded instruction of the active profile gives it back, with every operand byte, whatever
bytes follow it in memory, under every opcode map the spec allows. -/
def Obligations.DecodeInvertsEncode : Prop :=
  ∀ (cfg : Config) (i : Instr) (p q : Byte) (rest : List Byte), cfg.WellFormed → i.WellFormed cfg →
    decodeBytes cfg (encode cfg i ++ p :: q :: rest) = .ok i

/-- The bytes of an encoded instruction, placed where the engine fetches, make the next step run exactly that
instruction: its handler, then the engine's advance and halt transition. -/
def Obligations.PlacedInstructionRuns : Prop :=
  ∀ (s : State) (i : Instr), s.cfg.WellFormed → Memory.wf s.mem → i.WellFormed s.cfg →
    s.state = .running → s.pc + 2 < 256 →
    ∃ t, exec i { s with mem := Memory.place s.mem s.pc (encode s.cfg i) } = .next t ∧
      step { s with mem := Memory.place s.mem s.pc (encode s.cfg i) } =
        .next (endStep (s.cfg.opcodes.byteOf i.opcode) s.pc t)

/-- Words written out from the encodings of 30_encoding.md and 45_alu_extension.md under the default map
(log 3: the bytes are general knowledge) decode to the instructions they stand for. -/
def Obligations.SampleWordsDecode : Prop :=
  decode Config.default 0x82#8 0x05#8 0xC8#8 = .ok (.ldi 5#8 200#8) ∧
  decode Config.default 0x47#8 0x03#8 0x00#8 = .ok (.prn 3#8) ∧
  decode Config.default 0xA2#8 0x02#8 0x03#8 = .ok (.mul 2#8 3#8) ∧
  decode Config.default 0x45#8 0x04#8 0x46#8 = .ok (.push 4#8) ∧
  decode Config.default 0x55#8 0x02#8 0x00#8 = .ok (.jeq 2#8) ∧
  decode Config.default 0x01#8 0x47#8 0x00#8 = .ok .hlt ∧
  decode Config.allRows 0x69#8 0x03#8 0x00#8 = .ok (.not 3#8) ∧
  decode Config.allRows 0xAD#8 0x00#8 0x01#8 = .ok (.shr 0#8 1#8)

/-- The default map meets the constraints of R81, without and with the profile ALU_EXT (log 3, log 4). -/
def Obligations.DefaultMapMeetsConstraints : Prop :=
  Config.default.WellFormed ∧ Config.allRows.WellFormed

/-- Under the default map and base profile exactly ten bytes are defined (log 3). -/
def Obligations.BaseProfileDefinesTenBytes : Prop :=
  ∀ op b1 b2 : Byte, (∃ i, decode Config.default op b1 b2 = .ok i) ↔
    op ∈ [0x01#8, 0x45#8, 0x46#8, 0x47#8, 0x54#8, 0x55#8, 0x56#8, 0x82#8, 0xA2#8, 0xA7#8]

/-- With the profile ALU_EXT off, no byte decodes to an instruction of the profile; with it on, the byte of
every one of them does (log 5: the profile is general knowledge). -/
def Obligations.ProfileGatesExtension : Prop :=
  (∀ (cfg : Config) (op b1 b2 : Byte) (i : Instr), cfg.aluExt = false → decode cfg op b1 b2 = .ok i →
    i.opcode ∉ extOpcodes) ∧
  (∀ (cfg : Config) (i : Instr) (p q : Byte), cfg.WellFormed → cfg.aluExt = true →
    i.opcode ∈ extOpcodes → decodeBytes cfg (encode cfg i ++ [p, q]) = .ok i)

/-- A byte with operand count 3 is never a defined opcode, and under `noop` a step on it moves the pc by 4
and does nothing else (log 7). -/
def Obligations.CountThreeBytesAreUnknown : Prop :=
  ∀ (s : State) (op b1 b2 : Byte), s.cfg.WellFormed → operandCount op = 3 →
    decode s.cfg op b1 b2 = .error (.unknownOpcode op) ∧
    (Fetches s op b1 b2 → s.cfg.unknownOpcode = .noop → step s = .next { s with pc := s.pc + 4 })

/-- R77: an operand byte that the instruction does not use changes nothing of what is decoded, and so of what
the step does; the fetch still requires all three bytes to lie inside memory. -/
def Obligations.UnusedOperandBytesHaveNoEffect : Prop :=
  (∀ (cfg : Config) (op b1 b2 : Byte) (i : Instr), cfg.WellFormed → decode cfg op b1 b2 = .ok i →
    (operandCount op ≤ 1 → ∀ c2, decode cfg op b1 c2 = .ok i) ∧
    (operandCount op = 0 → ∀ c1 c2, decode cfg op c1 c2 = .ok i)) ∧
  (∀ (s : State) (op b1 b2 : Byte), Fetches s op b1 b2 →
    step s = (match decode s.cfg op b1 b2 with
      | .ok i => finish op s.pc (exec i s)
      | .error _ => unknownStep op s)) ∧
  FetchFaults

/-! ### The engine's cycle -/

/-- When the bytes at the pc decode to an instruction, the step is that instruction's handler, and then, unless
the handler raised an error, the pc's advance and the halt transition. -/
def Obligations.StepRunsDecodedInstruction : Prop :=
  ∀ (s : State) (op b1 b2 : Byte) (i : Instr), Fetches s op b1 b2 → decode s.cfg op b1 b2 = .ok i →
    ∃ t, exec i s = .next t ∧
      step s = .next (if t.state = .faulted then t
        else if t.halt = true then
          { t with pc := if setsPc op = true then t.pc else s.pc + operandCount op + 1, state := .halted }
        else { t with pc := if setsPc op = true then t.pc else s.pc + operandCount op + 1 })

/-- R101: the three reads, in order, each bounds-checked, for every step of a running engine. -/
def Obligations.FetchReadsThreeBytesInOrder : Prop :=
  ∀ s : State,
    (256 ≤ s.pc → fetch s = .error (.outOfBounds s.pc)) ∧
    (s.pc < 256 → 256 ≤ s.pc + 1 → fetch s = .error (.outOfBounds (s.pc + 1))) ∧
    (s.pc + 1 < 256 → 256 ≤ s.pc + 2 → fetch s = .error (.outOfBounds (s.pc + 2))) ∧
    (s.pc + 2 < 256 → ∃ op b1 b2, memRead s s.pc = .ok op ∧ memRead s (s.pc + 1) = .ok b1 ∧
      memRead s (s.pc + 2) = .ok b2 ∧ fetch s = .ok (op, b1, b2)) ∧
    (∀ e, s.state = .running → fetch s = .error e → step s = .next (raise e s))

/-- After a handler that raised no error, the pc is the pc at fetch plus the count plus one when sets_pc is 0, and what
the handler wrote when it is 1; under the default map those are the three jumps, and each writes the pc on every
path (40_engine.md section 1). Derived: which bytes the default map gives is log 3, and the pc + 2 of a jump that is
not taken is log 11 (decision D7). -/
def Obligations.EngineAdvancesUnlessOpcodeSetsPc : Prop :=
  (∀ (s t : State) (op b1 b2 : Byte) (i : Instr), Fetches s op b1 b2 → decode s.cfg op b1 b2 = .ok i →
    exec i s = .next t → t.state ≠ .faulted →
    ∃ u, step s = .next u ∧
      (setsPc op = false → u.pc = s.pc + operandCount op + 1) ∧ (setsPc op = true → u.pc = t.pc)) ∧
  (∀ o : Opcode, setsPc (Config.default.opcodes.byteOf o) = true ↔ o = .jmp ∨ o = .jeq ∨ o = .jne) ∧
  (∀ (s t : State) (r : Byte) (i : Instr), i = .jmp r ∨ i = .jeq r ∨ i = .jne r →
    exec i s = .next t → t.state ≠ .faulted → s.state ≠ .faulted →
    (∃ h : r.toNat < 8, t.pc = s.x[r.toNat]) ∨ t.pc = s.pc + 2)

/-- An unknown opcode: under `noop` nothing but the pc changes, whatever sets_pc is; under `fault` the engine
raises `UnknownOpcode` (log 7: decision D6, conflict C1). -/
def Obligations.UnknownOpcodeFollowsPolicy : Prop :=
  ∀ (s : State) (op b1 b2 : Byte), Fetches s op b1 b2 →
    decode s.cfg op b1 b2 = .error (.unknownOpcode op) →
    (s.cfg.unknownOpcode = .noop → step s = .next { s with pc := s.pc + operandCount op + 1 }) ∧
    (s.cfg.unknownOpcode = .fault → step s = .next (raise (.unknownOpcode op) s))

/-- R106: a step that set the halt flag ends in HALTED, after the advance, and no further step runs, whatever
memory then holds. -/
def Obligations.HaltEndsTheRun : Prop :=
  (∀ s t : State, s.halt = false → step s = .next t → t.halt = true → t.state = .halted) ∧
  (∀ (s : State) (b1 b2 : Byte), s.cfg.WellFormed → Fetches s s.cfg.opcodes.hlt b1 b2 →
    ∃ t, step s = .next t ∧ t.state = .halted ∧ t.pc = s.pc + 1 ∧
      ∀ (m : Memory) (u : State), step { t with mem := m } ≠ .next u)

/-- HALTED and FAULTED have no step (log 18: decision D21); the model answers a fault that names which. -/
def Obligations.StoppedEngineHasNoStep : Prop :=
  ∀ s : State, (s.state = .halted → step s = .fault .engineHalted) ∧
    (s.state = .faulted → step s = .fault (.engineFaulted s.fault))

/-- A running engine always steps: no instruction, byte, register value or address leaves it stuck. -/
def Obligations.RunningEngineAlwaysSteps : Prop :=
  ∀ s : State, s.state = .running → ∃ t, step s = .next t

/-- A run under fuel ends halted or faulted only in that engine state, and running out of fuel is reported as not
ended; the state it reports is reached from the start (log 27: decision D23). -/
def Obligations.RunUnderFuelReportsTheEngineState : Prop :=
  ∀ (n : Nat) (s t : State),
    (runFuel n s = .halted t → t.state = .halted ∧ Reaches s t) ∧
    (runFuel n s = .faulted t → t.state = .faulted ∧ Reaches s t) ∧
    (runFuel n s = .notEnded t → t.state = .running ∧ Reaches s t)

/-- Over zero-filled memory the default machine runs 254 no-op steps and then faults on the fetch of address 256;
in strict mode it faults at once (log 7; 70_reset_and_hazards.md section 3). -/
def Obligations.ZeroMemoryRunFaultsAtTheEnd : Prop :=
  (∀ n, n ≤ 254 → Host.Core.run Sys2Proof.core n State.reset = .next { State.reset with pc := n }) ∧
  step { State.reset with pc := 254 } =
    .next { State.reset with
      pc := 254
      state := .faulted
      fault := some { code := 1, pc := 254, opcode := some 0#8, detail := .address 256 } } ∧
  step (State.construct { Config.default with unknownOpcode := .fault }) =
    .next (raise (.unknownOpcode 0#8) (State.construct { Config.default with unknownOpcode := .fault }))

/-! ### Fatal errors -/

/-- A step that ends in FAULTED changes the engine state and the fault record alone, and the record holds the
error's code, the pc, the byte at the pc (none outside memory) and the detail; `UnsupportedOperation` does
not occur (log 15: decision D13). -/
def Obligations.FaultingStepOnlyRecordsTheFault : Prop :=
  ∀ s t : State, step s = .next t → t.state = .faulted →
    ∃ (code : Nat) (detail : Detail) (opcode : Option Byte),
      t = { s with
        state := .faulted
        fault := some { code := code, pc := s.pc, opcode := opcode, detail := detail } } ∧
      (s.pc < 256 → ∃ b, memRead s s.pc = .ok b ∧ opcode = some b) ∧ (256 ≤ s.pc → opcode = none) ∧
      ((∃ a, 256 ≤ a ∧ code = 1 ∧ detail = .address a) ∨
       (∃ i, 8 ≤ i ∧ code = 2 ∧ detail = .register i) ∨
       (∃ b, s.cfg.unknownOpcode = .fault ∧ opcode = some b ∧ code = 4 ∧ detail = .byte b))

/-- The causes of `OutOfBounds` (60_exceptions.md section 2): the fetch; PUSH when the decremented stack pointer is
outside memory and POP when the stack pointer is, both only when W > 8; no other instruction; and the loader.
Derived: the wrapped decrement is log 8 (decision D3), that POP reads memory before it checks its index is log 17
(decision D14), and the record and its code are log 15 (decision D13). -/
def Obligations.OutOfBoundsCauses : Prop :=
  (∀ a, (FatalError.outOfBounds a).code = 1 ∧ (FatalError.outOfBounds a).detail = .address a) ∧
  FetchFaults ∧
  (∀ (s : State) (r : Byte), pushAddress s = (s.x[7] + 2 ^ s.cfg.wordBits - 1) % 2 ^ s.cfg.wordBits ∧
    (256 ≤ pushAddress s → r.toNat < 8 →
      exec (.push r) s = .next (raise (.outOfBounds (pushAddress s)) s)) ∧
    (256 ≤ s.x[7] → exec (.pop r) s = .next (raise (.outOfBounds s.x[7]) s)) ∧
    (s.RegsOk → s.cfg.wordBits = 8 → pushAddress s < 256 ∧ s.x[7] < 256)) ∧
  (∀ (s : State) (i : Instr) (a : Nat), s.state = .running →
    exec i s = .next (raise (.outOfBounds a) s) → 256 ≤ a ∧
    ((∃ r, i = .push r ∧ a = pushAddress s) ∨ (∃ r, i = .pop r ∧ a = s.x[7]))) ∧
  (∀ (s : State) (bytes : List Byte) (start : Nat), 256 < start + bytes.length →
    ∃ a, 256 ≤ a ∧ loadProgram bytes start s = .error (.outOfBounds a))

/-- The causes of `InvalidRegister` (60_exceptions.md section 2): the first index of 8 or more among those the instruction checks, in its
order (POP checks its index after its read of memory); a conditional jump checks only when taken; HLT and
unknown opcodes never raise it. Derived: R233 does not list the profile ALU_EXT (log 5), and gives neither POP's
order (log 17: decision D14) nor, on its own, the jumps' condition (log 11: decision D8). -/
def Obligations.InvalidRegisterCauses : Prop :=
  (∀ k, (FatalError.invalidRegister k).code = 2 ∧ (FatalError.invalidRegister k).detail = .register k) ∧
  (∀ (s : State) (i : Instr) (k : Nat), (checked s.fl i).find? (fun j => decide (8 ≤ j)) = some k →
    (∀ r, i = .pop r → s.x[7] < 256) → exec i s = .next (raise (.invalidRegister k) s)) ∧
  (∀ (s : State) (i : Instr) (k : Nat), s.state = .running →
    exec i s = .next (raise (.invalidRegister k) s) →
    (checked s.fl i).find? (fun j => decide (8 ≤ j)) = some k) ∧
  (∀ (s : State) (op b1 b2 : Byte) (k : Nat), Fetches s op b1 b2 →
    decode s.cfg op b1 b2 = .error (.unknownOpcode op) → step s ≠ .next (raise (.invalidRegister k) s))

/-- The ALU's supported set is ADD and MUL in the base profile and all nine operations under ALU_EXT; outside it the
ALU raises `UnsupportedOperation`, and no step reaches that (log 6). -/
def Obligations.UnsupportedOperationIsUnreachable : Prop :=
  (∀ (cfg : Config) (op : AluOp) (a b : Nat), (op = .add ∨ op = .mul ∨ cfg.aluExt = true) →
    ∃ v, alu cfg op a b = .ok v) ∧
  (∀ (cfg : Config) (op : AluOp) (a b : Nat), op ≠ .add → op ≠ .mul → cfg.aluExt = false →
    alu cfg op a b = .error (.unsupportedOperation op)) ∧
  (∀ (s : State) (op : AluOp), step s ≠ .next (raise (.unsupportedOperation op) s))

/-! ### Memory and registers -/

/-- R51 and R52: a read inside memory gives the cell, a write sets that cell to the value's low byte and no other,
and outside memory both raise `OutOfBounds` and change nothing. -/
def Obligations.MemoryReadAfterWrite : Prop :=
  ∀ (s : State) (a : Nat) (v : Nat),
    (a < 256 → memRead s a = .ok (Memory.peek s.mem a)) ∧
    (256 ≤ a → memRead s a = .error (.outOfBounds a) ∧ memWrite s a v = .error (.outOfBounds a)) ∧
    (a < 256 → Memory.wf s.mem → ∃ t, memWrite s a v = .ok t ∧ t = { s with mem := t.mem } ∧
      Memory.wf t.mem ∧ (∃ c : Byte, c.toNat = v % 256 ∧ memRead t a = .ok c) ∧
      ∀ b, b ≠ a → memRead t b = memRead s b)

/-- R24: a register access with an index of 8 or more fails with `InvalidRegister`, the index not masked; below 8
it is the register of that index. -/
def Obligations.RegisterIndexIsCheckedWhole : Prop :=
  ∀ (s : State) (i : Byte) (v : Nat),
    (8 ≤ i.toNat → readReg s i = .error (.invalidRegister i.toNat) ∧
      writeReg s i v = .error (.invalidRegister i.toNat)) ∧
    (∀ h : i.toNat < 8, readReg s i = .ok s.x[i.toNat] ∧ ∃ t, writeReg s i v = .ok t)

/-- A register write stores the value mod 2^W in that register and in no other, register 7 included, so the stack
pointer wraps at both ends (log 8: decision D3). -/
def Obligations.RegisterWriteReducesModulo : Prop :=
  ∀ (s t : State) (i : Byte) (v : Nat), writeReg s i v = .ok t →
    t = { s with x := t.x } ∧ readReg t i = .ok (v % 2 ^ s.cfg.wordBits) ∧
    (∀ j : Byte, j ≠ i → readReg t j = readReg s j) ∧
    writeReg s 7#8 v = .ok (setSp s v) ∧ readReg s 7#8 = .ok (sp s) ∧
    (s.x[7] = 0 → pushAddress s = 2 ^ s.cfg.wordBits - 1) ∧
    (s.x[7] = 2 ^ s.cfg.wordBits - 1 → sp (setSp s (sp s + 1)) = 0)

/-- Each instruction writes only the registers of R23's table, and those of the profile ALU_EXT only `x[a]` or `x[r]`
(log 5 for the profile). -/
def Obligations.RegisterWritesFollowTheTable : Prop :=
  ∀ (i : Instr) (s t : State), exec i s = .next t →
    ∀ (j : Nat) (h : j < 8), j ∉ writes i → t.x[j] = s.x[j]

/-- Each instruction reads only the registers of R23's table: changing one that it neither reads nor writes changes
nothing else of what it does, and LDI's result does not depend on the register it overwrites (log 5 for the
profile, log 11 for the conditional jumps). -/
def Obligations.UnreadRegistersDoNotMatter : Prop :=
  (∀ (i : Instr) (s t : State) (j v : Nat) (h : j < 8), j ∉ reads s.fl i → j ∉ writes i →
    exec i s = .next t → exec i { s with x := s.x.set j v } = .next { t with x := t.x.set j v }) ∧
  (∀ (s : State) (r v : Byte) (w : Nat) (h : r.toNat < 8),
    exec (.ldi r v) { s with x := s.x.set r.toNat w } = exec (.ldi r v) s)

/-! ### Whole-machine rules -/

/-- Only CMP writes the flags, whatever else a step does; CMP overwrites all three, whatever they held, and sets
exactly the one of the true relation between the register contents; the flags are zero after construction; and no
instruction reads L or G: the flags may be replaced by any with the same E without changing anything else that an
instruction does (10_state.md section 4). Derived: that the relation is unsigned is log 14 (decision D12), and the
fall-through to pc + 2 of a jump that is not taken is log 11 (decision D7). -/
def Obligations.OnlyCompareWritesFlags : Prop :=
  (∀ (i : Instr) (s t : State), exec i s = .next t → (∀ a b, i ≠ .cmp a b) → t.fl = s.fl) ∧
  (∀ s t : State, step s = .next t → t.fl ≠ s.fl →
    ∃ op a b, fetch s = .ok (op, a, b) ∧ decode s.cfg op a b = .ok (.cmp a b)) ∧
  (∀ (s : State) (a b : Byte) (f : BitVec 8) (ha : a.toNat < 8) (hb : b.toNat < 8),
    ∃ t, exec (.cmp a b) s = .next t ∧ exec (.cmp a b) { s with fl := f } = .next t ∧
      (flagL t.fl = true ↔ s.x[a.toNat] < s.x[b.toNat]) ∧
      (flagE t.fl = true ↔ s.x[a.toNat] = s.x[b.toNat]) ∧
      (flagG t.fl = true ↔ s.x[a.toNat] > s.x[b.toNat]) ∧
      (flagL t.fl).toNat + (flagE t.fl).toNat + (flagG t.fl).toNat = 1) ∧
  (∀ cfg : Config, flagL (State.construct cfg).fl = false ∧ flagE (State.construct cfg).fl = false ∧
    flagG (State.construct cfg).fl = false) ∧
  (∀ (i : Instr) (s t : State) (f : BitVec 8), flagE f = flagE s.fl → exec i s = .next t →
    ∃ u, exec i { s with fl := f } = .next u ∧ { u with fl := 0#8 } = { t with fl := 0#8 }) ∧
  (∀ (s : State) (r : Byte) (h : r.toNat < 8),
    exec (.jeq r) s = .next { s with pc := if flagE s.fl = true then s.x[r.toNat] else s.pc + 2 } ∧
    exec (.jne r) s = .next { s with pc := if flagE s.fl = true then s.pc + 2 else s.x[r.toNat] })

/-- During execution only PUSH changes memory, and only the byte at the decremented stack pointer: a step that
changes any byte decoded a PUSH and changed that byte (20_memory.md section 2, less its sentence on the loader). -/
def Obligations.OnlyPushWritesMemory : Prop :=
  ∀ (s t : State) (a : Nat), Memory.wf s.mem → step s = .next t → memRead t a ≠ memRead s a →
    ∃ op b1 b2, fetch s = .ok (op, b1, b2) ∧ decode s.cfg op b1 b2 = .ok (.push b1) ∧ a = pushAddress s

/-- Only PRN appends to the output sink, one register value per execution, and no step removes or changes what the
sink holds (log 19: decision D15). -/
def Obligations.OnlyPrintAppendsToOutput : Prop :=
  ∀ s t : State, step s = .next t → t.out = s.out ∨
    ∃ op b1 b2, ∃ h : b1.toNat < 8, fetch s = .ok (op, b1, b2) ∧
      decode s.cfg op b1 b2 = .ok (.prn b1) ∧ t.out = s.out ++ [s.x[b1.toNat]]

/-- R33: the halt flag is false after construction, set only by HLT, cleared by nothing; and once it is set in a
machine that meets the invariant, there is no further step. -/
def Obligations.OnlyHaltSetsTheHaltFlag : Prop :=
  (∀ cfg : Config, (State.construct cfg).halt = false) ∧
  (∀ s t : State, step s = .next t → s.halt = false → t.halt = true →
    ∃ op b1 b2, fetch s = .ok (op, b1, b2) ∧ decode s.cfg op b1 b2 = .ok .hlt) ∧
  (∀ (i : Instr) (s t : State), exec i s = .next t → s.halt = true → t.halt = true) ∧
  (∀ s t : State, s.Inv → s.halt = true → step s ≠ .next t)

/-- Where a pc comes from: a step leaves it (on a fault), adds 1 to 4, or takes a register's value; it is never
reduced (log 9: decision D4). -/
def Obligations.ProgramCounterSources : Prop :=
  ∀ s t : State, s.cfg.WellFormed → step s = .next t →
    (t.state = .faulted ∧ t.pc = s.pc) ∨ (∃ k, 1 ≤ k ∧ k ≤ 4 ∧ t.pc = s.pc + k) ∨
      ∃ (j : Nat) (h : j < 8), t.pc = s.x[j]

/-- The fetch after a PUSH sees the byte it stored, at the opcode address and at both operand addresses, and at each
of them otherwise the byte that stood there; it succeeds exactly while its three addresses lie inside memory
(20_memory.md section 6 and 43_stack.md; log 22: decision D22). For r = 7 the byte is that of the decremented pointer
(log 12: decision D9), a push from 0 wraps (log 8: decision D3), and of a wide word the low byte is stored
(log 21: decision D17). -/
def Obligations.NextFetchSeesThePushedByte : Prop :=
  ∀ (s : State) (r b2 : Byte) (h : r.toNat < 8), s.cfg.WellFormed → Memory.wf s.mem →
    Fetches s s.cfg.opcodes.push r b2 → pushAddress s < 256 →
    ∃ t, step s = .next t ∧ t.state = .running ∧
      (s.pc + 4 < 256 → ∃ op c1 c2, fetch t = .ok (op, c1, c2) ∧
        op = (if s.pc + 2 = pushAddress s then BitVec.ofNat 8 t.x[r.toNat] else Memory.peek s.mem (s.pc + 2)) ∧
        c1 = (if s.pc + 3 = pushAddress s then BitVec.ofNat 8 t.x[r.toNat] else Memory.peek s.mem (s.pc + 3)) ∧
        c2 = (if s.pc + 4 = pushAddress s then BitVec.ofNat 8 t.x[r.toNat] else Memory.peek s.mem (s.pc + 4))) ∧
      (256 ≤ s.pc + 4 → fetch t = .error (.outOfBounds 256))

/-! ### The instructions of the base set -/

/-- R108, HLT. The byte 0x01 is the default map's (log 3). That memory after the HLT is never executed is said of the
state the step ends in, with any memory in place of its own. -/
def Obligations.HaltInstruction : Prop :=
  (∀ s : State, exec .hlt s = .next { s with halt := true }) ∧
  (∀ (s : State) (b1 b2 : Byte), s.cfg.WellFormed → Fetches s s.cfg.opcodes.hlt b1 b2 →
    step s = .next { s with halt := true, state := .halted, pc := s.pc + 1 } ∧
    ∀ (m : Memory) (u : State),
      step { s with halt := true, state := .halted, pc := s.pc + 1, mem := m } ≠ .next u) ∧
  encode Config.default .hlt = [0x01#8] ∧
  (∀ s : State, s.state = .running → s.pc = 254 ∨ s.pc = 255 →
    step s = .next (raise (.outOfBounds 256) s)) ∧ FetchFaults

/-- R120, LDI. The byte 0x82 is the default map's (log 3). -/
def Obligations.LoadImmediateInstruction : Prop :=
  (∀ (s : State) (r v : Byte), 8 ≤ s.cfg.wordBits → ∀ h : r.toNat < 8,
    exec (.ldi r v) s = .next { s with x := s.x.set r.toNat v.toNat }) ∧
  (∀ (s : State) (r v : Byte), 8 ≤ r.toNat →
    exec (.ldi r v) s = .next (raise (.invalidRegister r.toNat) s)) ∧
  (∀ (s : State) (r v : Byte), s.cfg.WellFormed → Fetches s s.cfg.opcodes.ldi r v →
    (∀ h : r.toNat < 8, step s = .next { s with x := s.x.set r.toNat v.toNat, pc := s.pc + 3 }) ∧
    (8 ≤ r.toNat → step s = .next (raise (.invalidRegister r.toNat) s))) ∧
  (∀ r v : Byte, encode Config.default (.ldi r v) = [0x82#8, r, v]) ∧ FetchFaults

/-- R122, PRN. The byte 0x47 is the default map's (log 3). -/
def Obligations.PrintRegisterInstruction : Prop :=
  (∀ (s : State) (r : Byte), (∀ h : r.toNat < 8,
      exec (.prn r) s = .next { s with out := s.out ++ [s.x[r.toNat]] }) ∧
    (8 ≤ r.toNat → exec (.prn r) s = .next (raise (.invalidRegister r.toNat) s))) ∧
  (∀ (s : State) (r b2 : Byte), s.cfg.WellFormed → Fetches s s.cfg.opcodes.prn r b2 →
    (∀ h : r.toNat < 8, step s = .next { s with out := s.out ++ [s.x[r.toNat]], pc := s.pc + 2 }) ∧
    (8 ≤ r.toNat → step s = .next (raise (.invalidRegister r.toNat) s))) ∧
  (∀ r : Byte, encode Config.default (.prn r) = [0x47#8, r]) ∧ FetchFaults

/-- R142, MUL. The byte 0xA2 is the default map's (log 3). -/
def Obligations.MultiplyInstruction : Prop :=
  (∀ (s : State) (a b : Byte), (∀ (ha : a.toNat < 8) (hb : b.toNat < 8),
      exec (.mul a b) s = .next { s with
        x := s.x.set a.toNat ((s.x[a.toNat] * s.x[b.toNat]) % 2 ^ s.cfg.wordBits) }) ∧
    (8 ≤ a.toNat → exec (.mul a b) s = .next (raise (.invalidRegister a.toNat) s)) ∧
    (a.toNat < 8 → 8 ≤ b.toNat → exec (.mul a b) s = .next (raise (.invalidRegister b.toNat) s))) ∧
  (∀ (s : State) (a b : Byte), s.cfg.WellFormed → Fetches s s.cfg.opcodes.mul a b →
    (∀ (ha : a.toNat < 8) (hb : b.toNat < 8), step s = .next { s with
        x := s.x.set a.toNat ((s.x[a.toNat] * s.x[b.toNat]) % 2 ^ s.cfg.wordBits)
        pc := s.pc + 3 }) ∧
    (8 ≤ a.toNat → step s = .next (raise (.invalidRegister a.toNat) s)) ∧
    (a.toNat < 8 → 8 ≤ b.toNat → step s = .next (raise (.invalidRegister b.toNat) s))) ∧
  (∀ a b : Byte, encode Config.default (.mul a b) = [0xA2#8, a, b]) ∧ FetchFaults

/-- PUSH: the stack pointer decremented, wrapping; the low byte of `x[r]`, read after the decrement, stored where it
then points; every other byte and field as before (43_stack.md; log 8, log 12, log 21). -/
def Obligations.PushInstruction : Prop :=
  ∀ (s : State) (r : Byte), Memory.wf s.mem →
    pushAddress s = (s.x[7] + 2 ^ s.cfg.wordBits - 1) % 2 ^ s.cfg.wordBits ∧
    (∀ h : r.toNat < 8, pushAddress s < 256 → ∃ t, exec (.push r) s = .next t ∧
      t = { s with x := s.x.set 7 (pushAddress s), mem := t.mem } ∧
      (∀ a, memRead t a =
        if a = pushAddress s then .ok (BitVec.ofNat 8 t.x[r.toNat]) else memRead s a) ∧
      (∀ b2, s.cfg.WellFormed → Fetches s s.cfg.opcodes.push r b2 →
        step s = .next { t with pc := s.pc + 2 })) ∧
    (8 ≤ r.toNat → exec (.push r) s = .next (raise (.invalidRegister r.toNat) s)) ∧
    (r.toNat < 8 → 256 ≤ pushAddress s →
      exec (.push r) s = .next (raise (.outOfBounds (pushAddress s)) s))

/-- POP: the byte at the stack pointer zero-extended into `x[r]`, then register 7, as it is after that write,
incremented, wrapping; nothing else changes, memory included (43_stack.md; log 8, log 12). -/
def Obligations.PopInstruction : Prop :=
  ∀ (s : State) (r : Byte), 8 ≤ s.cfg.wordBits →
    (∀ (b : Byte) (h : r.toNat < 8), memRead s s.x[7] = .ok b →
      exec (.pop r) s = .next { s with
        x := (s.x.set r.toNat b.toNat).set 7
          ((if r.toNat = 7 then b.toNat + 1 else s.x[7] + 1) % 2 ^ s.cfg.wordBits) } ∧
      (∀ b2, s.cfg.WellFormed → Fetches s s.cfg.opcodes.pop r b2 → step s = .next { s with
        x := (s.x.set r.toNat b.toNat).set 7
          ((if r.toNat = 7 then b.toNat + 1 else s.x[7] + 1) % 2 ^ s.cfg.wordBits)
        pc := s.pc + 2 })) ∧
    (256 ≤ s.x[7] → exec (.pop r) s = .next (raise (.outOfBounds s.x[7]) s)) ∧
    (s.x[7] < 256 → 8 ≤ r.toNat → exec (.pop r) s = .next (raise (.invalidRegister r.toNat) s))

/-- The round-trip law: PUSH then POP of one register gives every register its old value, for W = 8 from every stack
pointer, and for wider words while the decremented pointer is in memory and the value fits a byte
(43_stack.md, the round-trip law, with its derived cases; log 8, log 12, log 21). -/
def Obligations.PushPopRoundTrip : Prop :=
  ∀ (s : State) (r : Byte) (h : r.toNat < 8), Memory.wf s.mem → s.RegsOk → 8 ≤ s.cfg.wordBits →
    (s.cfg.wordBits = 8 ∨ 1 ≤ s.x[7] ∧ s.x[7] ≤ 256 ∧ (s.x[r.toNat] < 256 ∨ r.toNat = 7)) →
    ∃ t, exec (.push r) s = .next t ∧ exec (.pop r) t = .next { s with mem := t.mem }

/-- CMP: exactly the flag of the relation between the register contents, the other bits of the register 0; no register
and no byte changes. The comparison is unsigned (log 14: decision D12), the layout is log 13's. -/
def Obligations.CompareInstruction : Prop :=
  ∀ (s : State) (a b : Byte),
    (∀ (ha : a.toNat < 8) (hb : b.toNat < 8), ∃ f : BitVec 8,
      exec (.cmp a b) s = .next { s with fl := f } ∧
      flagL f = decide (s.x[a.toNat] < s.x[b.toNat]) ∧ flagE f = decide (s.x[a.toNat] = s.x[b.toNat]) ∧
      flagG f = decide (s.x[a.toNat] > s.x[b.toNat]) ∧ f.toNat < 8 ∧
      (s.cfg.WellFormed → Fetches s s.cfg.opcodes.cmp a b →
        step s = .next { s with fl := f, pc := s.pc + 3 })) ∧
    (8 ≤ a.toNat → exec (.cmp a b) s = .next (raise (.invalidRegister a.toNat) s)) ∧
    (a.toNat < 8 → 8 ≤ b.toNat → exec (.cmp a b) s = .next (raise (.invalidRegister b.toNat) s))

/-- R182, JMP. The byte 0x54 is the default map's (log 3). -/
def Obligations.JumpInstruction : Prop :=
  (∀ (s : State) (r : Byte),
    (∀ h : r.toNat < 8, exec (.jmp r) s = .next { s with pc := s.x[r.toNat] }) ∧
    (8 ≤ r.toNat → exec (.jmp r) s = .next (raise (.invalidRegister r.toNat) s))) ∧
  (∀ (s : State) (r b2 : Byte), s.cfg.WellFormed → Fetches s s.cfg.opcodes.jmp r b2 →
    (∀ h : r.toNat < 8, step s = .next { s with pc := s.x[r.toNat] }) ∧
    (8 ≤ r.toNat → step s = .next (raise (.invalidRegister r.toNat) s))) ∧
  (∀ r : Byte, encode Config.default (.jmp r) = [0x54#8, r]) ∧ setsPc 0x54#8 = true ∧ FetchFaults

/-- JEQ: taken to `x[r]` when E = 1, else to the next instruction without reading the register
(44_compare_branch.md; log 11: decisions D7, D8). -/
def Obligations.JumpIfEqualInstruction : Prop :=
  ∀ (s : State) (r : Byte),
    (∀ h : r.toNat < 8, flagE s.fl = true → exec (.jeq r) s = .next { s with pc := s.x[r.toNat] }) ∧
    (8 ≤ r.toNat → flagE s.fl = true → exec (.jeq r) s = .next (raise (.invalidRegister r.toNat) s)) ∧
    (flagE s.fl = false → exec (.jeq r) s = .next { s with pc := s.pc + 2 }) ∧
    (∀ b2 t, s.cfg.WellFormed → Fetches s s.cfg.opcodes.jeq r b2 → exec (.jeq r) s = .next t →
      step s = .next t)

/-- JNE: taken to `x[r]` when E = 0, else to the next instruction without reading the register
(44_compare_branch.md; log 11: decisions D7, D8). -/
def Obligations.JumpIfNotEqualInstruction : Prop :=
  ∀ (s : State) (r : Byte),
    (∀ h : r.toNat < 8, flagE s.fl = false → exec (.jne r) s = .next { s with pc := s.x[r.toNat] }) ∧
    (8 ≤ r.toNat → flagE s.fl = false → exec (.jne r) s = .next (raise (.invalidRegister r.toNat) s)) ∧
    (flagE s.fl = true → exec (.jne r) s = .next { s with pc := s.pc + 2 }) ∧
    (∀ b2 t, s.cfg.WellFormed → Fetches s s.cfg.opcodes.jne r b2 → exec (.jne r) s = .next t →
      step s = .next t)

/-! ### The instructions of the profile ALU_EXT (general knowledge in the spec: log 5) -/

/-- ADD and SUB under ALU_EXT: `x[a]` takes the sum mod 2^W, and the value in [0, 2^W) which added to `x[b]` gives
`x[a]` again mod 2^W; nothing else changes. -/
def Obligations.AddSubInstructions : Prop :=
  ∀ (s : State) (a b : Byte) (ha : a.toNat < 8) (hb : b.toNat < 8), s.cfg.aluExt = true →
    exec (.add a b) s = .next { s with
      x := s.x.set a.toNat ((s.x[a.toNat] + s.x[b.toNat]) % 2 ^ s.cfg.wordBits) } ∧
    ∃ v, exec (.sub a b) s = .next { s with x := s.x.set a.toNat v } ∧ v < 2 ^ s.cfg.wordBits ∧
      (v + s.x[b.toNat]) % 2 ^ s.cfg.wordBits = s.x[a.toNat] % 2 ^ s.cfg.wordBits

/-- AND, OR, XOR and NOT under ALU_EXT, bit by bit; nothing but `x[a]` or `x[r]` changes. -/
def Obligations.LogicInstructions : Prop :=
  ∀ (s : State) (a b : Byte) (ha : a.toNat < 8) (hb : b.toNat < 8), s.cfg.aluExt = true → s.RegsOk →
    (∃ v, exec (.and a b) s = .next { s with x := s.x.set a.toNat v } ∧
      ∀ k, v.testBit k = (s.x[a.toNat].testBit k && s.x[b.toNat].testBit k)) ∧
    (∃ v, exec (.or a b) s = .next { s with x := s.x.set a.toNat v } ∧
      ∀ k, v.testBit k = (s.x[a.toNat].testBit k || s.x[b.toNat].testBit k)) ∧
    (∃ v, exec (.xor a b) s = .next { s with x := s.x.set a.toNat v } ∧
      ∀ k, v.testBit k = (s.x[a.toNat].testBit k ^^ s.x[b.toNat].testBit k)) ∧
    (∃ v, exec (.not a) s = .next { s with x := s.x.set a.toNat v } ∧
      ∀ k, v.testBit k = (decide (k < s.cfg.wordBits) && !s.x[a.toNat].testBit k))

/-- SHL and SHR under ALU_EXT: the amount is the whole register, so W or more gives 0; zeros enter at the top of a
right shift; nothing but `x[a]` changes. -/
def Obligations.ShiftInstructions : Prop :=
  ∀ (s : State) (a b : Byte) (ha : a.toNat < 8) (hb : b.toNat < 8), s.cfg.aluExt = true → s.RegsOk →
    (∃ v, exec (.shl a b) s = .next { s with x := s.x.set a.toNat v } ∧
      v = (s.x[a.toNat] * 2 ^ s.x[b.toNat]) % 2 ^ s.cfg.wordBits ∧
      (s.cfg.wordBits ≤ s.x[b.toNat] → v = 0)) ∧
    (∃ v, exec (.shr a b) s = .next { s with x := s.x.set a.toNat v } ∧
      v = s.x[a.toNat] / 2 ^ s.x[b.toNat] ∧ (s.cfg.wordBits ≤ s.x[b.toNat] → v = 0))

/-- An instruction of the profile checks `a` and then `b` (or `r`), as MUL does, and a step on its byte advances the
pc by its length. -/
def Obligations.ExtensionFaultsAndAdvance : Prop :=
  (∀ (s : State) (i : Instr) (a b : Byte),
    i ∈ [Instr.add a b, .sub a b, .and a b, .or a b, .xor a b, .shl a b, .shr a b] →
    (8 ≤ a.toNat → exec i s = .next (raise (.invalidRegister a.toNat) s)) ∧
    (a.toNat < 8 → 8 ≤ b.toNat → exec i s = .next (raise (.invalidRegister b.toNat) s))) ∧
  (∀ (s : State) (r : Byte), 8 ≤ r.toNat →
    exec (.not r) s = .next (raise (.invalidRegister r.toNat) s)) ∧
  (∀ (s t : State) (i : Instr) (b1 b2 : Byte), s.cfg.WellFormed → i.opcode ∈ extOpcodes →
    Fetches s (s.cfg.opcodes.byteOf i.opcode) b1 b2 →
    decode s.cfg (s.cfg.opcodes.byteOf i.opcode) b1 b2 = .ok i → exec i s = .next t →
    t.state ≠ .faulted → step s = .next { t with pc := s.pc + (encode s.cfg i).length })

/-! ### The host interface -/

/-- `load_program`: the bytes in place, every other cell as it was, and nothing but memory changed; a sequence that
would overflow memory fails with `OutOfBounds` (log 24: decision D18). -/
def Obligations.LoadProgramPlacesTheBytes : Prop :=
  ∀ (s : State) (bytes : List Byte) (start : Nat), Memory.wf s.mem →
    (start + bytes.length ≤ 256 → ∃ t, loadProgram bytes start s = .ok t ∧ t = { s with mem := t.mem } ∧
      Memory.wf t.mem ∧
      (∀ (i : Nat) (h : i < bytes.length), memRead t (start + i) = .ok bytes[i]) ∧
      (∀ a, a < start ∨ start + bytes.length ≤ a → memRead t a = memRead s a)) ∧
    (256 < start + bytes.length → ∃ a, 256 ≤ a ∧ loadProgram bytes start s = .error (.outOfBounds a))

/-- A line of a program image: eight binary digits after any whitespace are a byte, whatever follows them; a blank or
comment-only line is skipped; a line that starts with any other character is malformed, and so is one whose binary
digits are fewer than eight before the line's end, whitespace, a comment or any other character
(log 24: decision D18). -/
def Obligations.ProgramImageLines : Prop :=
  ∀ pre rest : List Char, pre.all isBlankChar = true →
    (∀ b : Byte, readLine (pre ++ binaryDigits b ++ rest) = .byte b) ∧
    readLine pre = .skipped ∧ readLine (pre ++ '#' :: rest) = .skipped ∧
    (∀ c : Char, isBlankChar c = false → c ≠ '#' → isBinaryDigit c = false →
      readLine (pre ++ c :: rest) = .malformed) ∧
    (∀ digits : List Char, digits.all isBinaryDigit = true → 1 ≤ digits.length → digits.length ≤ 7 →
      rest.head?.any isBinaryDigit = false → readLine (pre ++ digits ++ rest) = .malformed)

/-- The host's rendering of an output value: a decimal numeral of that value, without sign or leading zeros, then a
line end (log 19: decision D15). -/
def Obligations.OutputIsRenderedInDecimal : Prop :=
  ∀ v : Nat, ∃ digits : List Char, renderEntry v = digits ++ ['\n'] ∧
    digits.all Char.isDigit = true ∧
    digits.foldl (fun n c => 10 * n + (c.toNat - '0'.toNat)) 0 = v ∧
    (1 < digits.length → digits.head? ≠ some '0') ∧ digits ≠ []

/-- A program image is read line by line: the bytes of its valid lines in the file's order, the malformed ones skipped
by default; under the strict policy the same bytes if no line is malformed, and else the image is rejected at its
first malformed line (log 24: decision D18; the line's number, counted from 0, is the model's choice). -/
def Obligations.ProgramImageIsReadInOrder : Prop :=
  ∀ lines : List (List Char), lines ≠ [] → (∀ l ∈ lines, '\n' ∉ l) →
    readImage false (List.intercalate ['\n'] lines) = .ok (lines.filterMap lineByte) ∧
    ((∀ l ∈ lines, readLine l ≠ .malformed) →
      readImage true (List.intercalate ['\n'] lines) = .ok (lines.filterMap lineByte)) ∧
    (∀ (before after : List (List Char)) (bad : List Char), lines = before ++ bad :: after →
      (∀ l ∈ before, readLine l ≠ .malformed) → readLine bad = .malformed →
      readImage true (List.intercalate ['\n'] lines) = .error (.malformedProgramLine before.length))
end

