-- ==== Sys2Proof/Laws/Decode.lean ====
section
/-! SUPPORT. What the decoder's lookup finds, and what the constraints on an opcode map give
(30_encoding.md R73, R81). -/

namespace Sys2Proof

/-- A byte looked up is the byte of the opcode found, which is of the active profile. -/
theorem opcodeOf_some {cfg : Config} {op : Byte} {o : Opcode} (h : cfg.opcodeOf op = some o) :
    o ∈ cfg.active ∧ cfg.opcodes.byteOf o = op :=
  ⟨List.mem_of_find?_eq_some h, by simpa using List.find?_some h⟩

/-- A list in which a function is injective. -/
theorem eq_of_map_nodup {α β : Type} {f : α → β} {l : List α} (h : (l.map f).Nodup) {a b : α}
    (ha : a ∈ l) (hb : b ∈ l) (hab : f a = f b) : a = b :=
  List.inj_on_of_nodup_map h ha hb hab

/-- The byte of an active opcode is found as that opcode, when the map's bytes are distinct. -/
theorem opcodeOf_byteOf {cfg : Config} (h : cfg.DistinctOk) {o : Opcode} (ho : o ∈ cfg.active) :
    cfg.opcodeOf (cfg.opcodes.byteOf o) = some o := by
  cases hf : cfg.opcodeOf (cfg.opcodes.byteOf o) with
  | none => exact absurd (List.find?_eq_none.1 hf o ho) (by simp)
  | some p =>
    obtain ⟨hp, hb⟩ := opcodeOf_some hf
    rw [eq_of_map_nodup h hp ho hb]

/-- The byte of an active opcode decodes to that opcode's instruction. -/
theorem decode_byteOf {cfg : Config} (h : cfg.DistinctOk) {o : Opcode} (ho : o ∈ cfg.active)
    (b1 b2 : Byte) : decode cfg (cfg.opcodes.byteOf o) b1 b2 = .ok (assemble o b1 b2) := by
  simp only [decode, opcodeOf_byteOf h ho]

/-- What a decoded instruction is. -/
theorem decode_ok {cfg : Config} {op b1 b2 : Byte} {i : Instr} (h : decode cfg op b1 b2 = .ok i) :
    ∃ o, cfg.opcodeOf op = some o ∧ i = assemble o b1 b2 := by
  simp only [decode] at h
  split at h
  · rename_i o ho
    exact ⟨o, ho, (Except.ok.inj h).symm⟩
  · cases h

/-- A byte that is no opcode is refused by name. -/
theorem decode_of_none {cfg : Config} {op b1 b2 : Byte} (h : cfg.opcodeOf op = none) :
    decode cfg op b1 b2 = .error (.unknownOpcode op) := by
  simp only [decode, h]

/-- A refusal is that of a byte which is no opcode. -/
theorem decode_error {cfg : Config} {op b1 b2 : Byte} {e : DecodeReject}
    (h : decode cfg op b1 b2 = .error e) : cfg.opcodeOf op = none ∧ e = .unknownOpcode op := by
  simp only [decode] at h
  split at h
  · cases h
  · rename_i hn
    exact ⟨hn, (Except.error.inj h).symm⟩

@[simp] theorem opcode_assemble (o : Opcode) (b1 b2 : Byte) : (assemble o b1 b2).opcode = o := by
  cases o <;> rfl

/-- The opcode of a decoded instruction is the one looked up. -/
theorem decode_opcode {cfg : Config} {op b1 b2 : Byte} {i : Instr}
    (h : decode cfg op b1 b2 = .ok i) :
    i.opcode ∈ cfg.active ∧ cfg.opcodes.byteOf i.opcode = op := by
  obtain ⟨o, ho, rfl⟩ := decode_ok h
  simpa using opcodeOf_some ho

/-- The operand bytes of an assembled instruction. -/
theorem operandBytes_assemble (o : Opcode) (b1 b2 : Byte) :
    (assemble o b1 b2).operandBytes = [b1, b2].take o.operands := by
  cases o <;> rfl

/-- An instruction is assembled from its opcode and its operand bytes, whatever bytes follow. -/
theorem assemble_operandBytes (i : Instr) (p q : Byte) (rest : List Byte) :
    ∃ b1 b2 tl, i.operandBytes ++ p :: q :: rest = b1 :: b2 :: tl ∧ assemble i.opcode b1 b2 = i := by
  cases i <;> exact ⟨_, _, _, rfl, rfl⟩

/-- No format has more than two operands. -/
theorem operands_le_two (o : Opcode) : o.operands ≤ 2 := by cases o <;> decide

/-- The operand count in the byte of an active opcode. -/
theorem operandCount_byteOf {cfg : Config} (h : cfg.CountsOk) {o : Opcode} (ho : o ∈ cfg.active) :
    operandCount (cfg.opcodes.byteOf o) = o.operands := h o ho

/-- The sets-pc bit in the byte of an active opcode. -/
theorem setsPc_byteOf {cfg : Config} (h1 : cfg.JumpBitOk) (h2 : cfg.AdvanceBitOk) {o : Opcode}
    (ho : o ∈ cfg.active) : setsPc (cfg.opcodes.byteOf o) = o.isJump := by
  cases hj : o.isJump with
  | false => exact h2 o ho hj
  | true => exact h1 o ho hj

/-- Every base opcode is active, whatever the profile. -/
theorem mem_active_of_base {cfg : Config} {o : Opcode} (h : o ∈ baseOpcodes) : o ∈ cfg.active := by
  unfold Config.active
  split
  · exact List.mem_append_left _ h
  · exact h

/-- With the profile on, every opcode is active. -/
theorem mem_active_of_ext {cfg : Config} (h : cfg.aluExt = true) (o : Opcode) : o ∈ cfg.active := by
  rw [Config.active, if_pos h]
  cases o <;> decide

/-- With the profile off, only the base opcodes are active. -/
theorem active_of_base {cfg : Config} (h : cfg.aluExt = false) : cfg.active = baseOpcodes := by
  rw [Config.active, h]
  rfl

end Sys2Proof
end

