-- ==== Sys2Proof/Laws/State.lean ====
section
/-! SUPPORT. One lemma per field per named update of the state, true by definition, for simp. -/

namespace Sys2Proof.Machine

/-! ### setPc -/

@[simp] theorem setPc_cfg (s : State) (t : Nat) : (setPc s t).cfg = s.cfg := rfl
@[simp] theorem setPc_mem (s : State) (t : Nat) : (setPc s t).mem = s.mem := rfl
@[simp] theorem setPc_x (s : State) (t : Nat) : (setPc s t).x = s.x := rfl
@[simp] theorem setPc_fl (s : State) (t : Nat) : (setPc s t).fl = s.fl := rfl
@[simp] theorem setPc_pc (s : State) (t : Nat) : (setPc s t).pc = t := rfl
@[simp] theorem setPc_halt (s : State) (t : Nat) : (setPc s t).halt = s.halt := rfl
@[simp] theorem setPc_state (s : State) (t : Nat) : (setPc s t).state = s.state := rfl
@[simp] theorem setPc_fault (s : State) (t : Nat) : (setPc s t).fault = s.fault := rfl
@[simp] theorem setPc_out (s : State) (t : Nat) : (setPc s t).out = s.out := rfl

/-! ### setFlags -/

@[simp] theorem setFlags_cfg (s : State) (f : BitVec 8) : (setFlags s f).cfg = s.cfg := rfl
@[simp] theorem setFlags_mem (s : State) (f : BitVec 8) : (setFlags s f).mem = s.mem := rfl
@[simp] theorem setFlags_x (s : State) (f : BitVec 8) : (setFlags s f).x = s.x := rfl
@[simp] theorem setFlags_fl (s : State) (f : BitVec 8) : (setFlags s f).fl = f := rfl
@[simp] theorem setFlags_pc (s : State) (f : BitVec 8) : (setFlags s f).pc = s.pc := rfl
@[simp] theorem setFlags_halt (s : State) (f : BitVec 8) : (setFlags s f).halt = s.halt := rfl
@[simp] theorem setFlags_state (s : State) (f : BitVec 8) : (setFlags s f).state = s.state := rfl
@[simp] theorem setFlags_fault (s : State) (f : BitVec 8) : (setFlags s f).fault = s.fault := rfl
@[simp] theorem setFlags_out (s : State) (f : BitVec 8) : (setFlags s f).out = s.out := rfl

/-! ### setHalt -/

@[simp] theorem setHalt_cfg (s : State) : (setHalt s).cfg = s.cfg := rfl
@[simp] theorem setHalt_mem (s : State) : (setHalt s).mem = s.mem := rfl
@[simp] theorem setHalt_x (s : State) : (setHalt s).x = s.x := rfl
@[simp] theorem setHalt_fl (s : State) : (setHalt s).fl = s.fl := rfl
@[simp] theorem setHalt_pc (s : State) : (setHalt s).pc = s.pc := rfl
@[simp] theorem setHalt_halt (s : State) : (setHalt s).halt = true := rfl
@[simp] theorem setHalt_state (s : State) : (setHalt s).state = s.state := rfl
@[simp] theorem setHalt_fault (s : State) : (setHalt s).fault = s.fault := rfl
@[simp] theorem setHalt_out (s : State) : (setHalt s).out = s.out := rfl

/-! ### emit -/

@[simp] theorem emit_cfg (s : State) (v : Nat) : (emit s v).cfg = s.cfg := rfl
@[simp] theorem emit_mem (s : State) (v : Nat) : (emit s v).mem = s.mem := rfl
@[simp] theorem emit_x (s : State) (v : Nat) : (emit s v).x = s.x := rfl
@[simp] theorem emit_fl (s : State) (v : Nat) : (emit s v).fl = s.fl := rfl
@[simp] theorem emit_pc (s : State) (v : Nat) : (emit s v).pc = s.pc := rfl
@[simp] theorem emit_halt (s : State) (v : Nat) : (emit s v).halt = s.halt := rfl
@[simp] theorem emit_state (s : State) (v : Nat) : (emit s v).state = s.state := rfl
@[simp] theorem emit_fault (s : State) (v : Nat) : (emit s v).fault = s.fault := rfl
@[simp] theorem emit_out (s : State) (v : Nat) : (emit s v).out = s.out ++ [v] := rfl

/-! ### setSp -/

@[simp] theorem setSp_cfg (s : State) (v : Nat) : (setSp s v).cfg = s.cfg := rfl
@[simp] theorem setSp_mem (s : State) (v : Nat) : (setSp s v).mem = s.mem := rfl
@[simp] theorem setSp_x (s : State) (v : Nat) : (setSp s v).x = s.x.set 7 (wrap s.cfg.wordBits v) := rfl
@[simp] theorem setSp_fl (s : State) (v : Nat) : (setSp s v).fl = s.fl := rfl
@[simp] theorem setSp_pc (s : State) (v : Nat) : (setSp s v).pc = s.pc := rfl
@[simp] theorem setSp_halt (s : State) (v : Nat) : (setSp s v).halt = s.halt := rfl
@[simp] theorem setSp_state (s : State) (v : Nat) : (setSp s v).state = s.state := rfl
@[simp] theorem setSp_fault (s : State) (v : Nat) : (setSp s v).fault = s.fault := rfl
@[simp] theorem setSp_out (s : State) (v : Nat) : (setSp s v).out = s.out := rfl

/-! ### raise -/

@[simp] theorem raise_cfg (e : FatalError) (s : State) : (raise e s).cfg = s.cfg := rfl
@[simp] theorem raise_mem (e : FatalError) (s : State) : (raise e s).mem = s.mem := rfl
@[simp] theorem raise_x (e : FatalError) (s : State) : (raise e s).x = s.x := rfl
@[simp] theorem raise_fl (e : FatalError) (s : State) : (raise e s).fl = s.fl := rfl
@[simp] theorem raise_pc (e : FatalError) (s : State) : (raise e s).pc = s.pc := rfl
@[simp] theorem raise_halt (e : FatalError) (s : State) : (raise e s).halt = s.halt := rfl
@[simp] theorem raise_state (e : FatalError) (s : State) : (raise e s).state = .faulted := rfl
@[simp] theorem raise_fault (e : FatalError) (s : State) : (raise e s).fault = some (faultRecord e s) := rfl
@[simp] theorem raise_out (e : FatalError) (s : State) : (raise e s).out = s.out := rfl

/-! ### construct -/

@[simp] theorem construct_cfg (cfg : Config) : (State.construct cfg).cfg = cfg := rfl
@[simp] theorem construct_mem (cfg : Config) : (State.construct cfg).mem = [] := rfl
@[simp] theorem construct_x (cfg : Config) : (State.construct cfg).x = Vector.replicate 8 0 := rfl
@[simp] theorem construct_fl (cfg : Config) : (State.construct cfg).fl = 0#8 := rfl
@[simp] theorem construct_pc (cfg : Config) : (State.construct cfg).pc = cfg.loadAddr := rfl
@[simp] theorem construct_halt (cfg : Config) : (State.construct cfg).halt = false := rfl
@[simp] theorem construct_state (cfg : Config) : (State.construct cfg).state = .running := rfl
@[simp] theorem construct_fault (cfg : Config) : (State.construct cfg).fault = none := rfl
@[simp] theorem construct_out (cfg : Config) : (State.construct cfg).out = [] := rfl

end Sys2Proof.Machine
end

