-- ==== Sys2Proof/Laws/Memory.lean ====
section
/-! SUPPORT. The laws of memory: read after write, and that every memory operation keeps the canonical
form (20_memory.md R51, R52). -/

namespace Sys2Proof.Machine

/-- A canonical memory whose cells all lie above `k` holds the blank byte at `k`. -/
theorem peek_of_lt_all {m : Memory} {k : Nat} (h : ∀ c ∈ m, k < c.1) :
    Memory.peek m k = Memory.blank := by
  induction m with
  | nil => rfl
  | cons c m ih =>
    obtain ⟨a, b⟩ := c
    have hk : k < a := h (a, b) (List.mem_cons_self ..)
    simp only [Memory.peek, if_neg (show ¬a = k by omega)]
    exact ih fun d hd => h d (List.mem_cons_of_mem _ hd)

/-- The tail of a canonical memory is canonical. -/
theorem Memory.wf_tail {c : Host.Cell} {m : Memory} (h : Memory.wf (c :: m)) : Memory.wf m :=
  ⟨(List.pairwise_cons.1 h.1).2, fun d hd => h.2 d (List.mem_cons_of_mem _ hd)⟩

/-- The empty memory is canonical. -/
theorem Memory.wf_nil : Memory.wf [] := ⟨List.Pairwise.nil, fun _ h => nomatch h⟩

/-- Reading after writing, in a canonical memory. -/
theorem peek_poke {m : Memory} (hm : Memory.wf m) (k j : Nat) (v : Byte) :
    Memory.peek (Memory.poke m k v) j = if j = k then v else Memory.peek m j := by
  induction m with
  | nil =>
    by_cases hv : v = Memory.blank <;> by_cases hj : k = j <;>
      simp [Memory.poke, Memory.peek, hv, hj, eq_comm (a := j)]
  | cons c m ih =>
    obtain ⟨a, b⟩ := c
    have hab : ∀ d ∈ m, a < d.1 := (List.pairwise_cons.1 hm.1).1
    have ih := ih (Memory.wf_tail hm)
    by_cases h1 : a < k
    · simp only [Memory.poke, if_pos h1, Memory.peek, ih]
      by_cases haj : a = j
      · simp [haj, show ¬j = k by omega]
      · simp [haj]
    · by_cases h2 : a = k
      · subst h2
        by_cases hv : v = Memory.blank
        · simp only [Memory.poke, Nat.lt_irrefl, if_false, if_true, hv, Memory.peek]
          by_cases haj : j = a
          · subst haj
            simp [peek_of_lt_all hab]
          · simp [haj, show ¬a = j from fun h => haj h.symm]
        · simp only [Memory.poke, Nat.lt_irrefl, if_false, if_true, hv, Memory.peek]
          by_cases haj : a = j
          · simp [haj]
          · simp [haj, show ¬j = a from fun h => haj h.symm]
      · have hk : ∀ d ∈ (a, b) :: m, k < d.1 := by
          intro d hd
          rcases List.mem_cons.1 hd with rfl | hd
          · show k < a
            omega
          · have := hab d hd
            omega
        by_cases hv : v = Memory.blank
        · simp only [Memory.poke, if_neg h1, if_neg h2, hv, if_true]
          by_cases hj : j = k
          · subst hj
            simp [peek_of_lt_all hk]
          · simp [hj]
        · simp only [Memory.poke, if_neg h1, if_neg h2, if_neg hv]
          by_cases hj : j = k
          · simp [Memory.peek, hj]
          · rw [Memory.peek, if_neg fun h => hj h.symm, if_neg hj]

/-- The addresses listed after a write are the old ones and perhaps the written one. -/
theorem mem_poke {m : Memory} {k : Nat} {v : Byte} {c : Host.Cell}
    (hc : c ∈ Memory.poke m k v) : c ∈ m ∨ (c = (k, v) ∧ v ≠ Memory.blank) := by
  induction m with
  | nil =>
    by_cases hv : v = Memory.blank
    · simp [Memory.poke, hv] at hc
    · simp only [Memory.poke, if_neg hv, List.mem_singleton] at hc
      exact .inr ⟨hc, hv⟩
  | cons d m ih =>
    obtain ⟨a, b⟩ := d
    simp only [Memory.poke] at hc
    split at hc
    · rcases List.mem_cons.1 hc with rfl | hc
      · exact .inl (List.mem_cons_self ..)
      · exact (ih hc).imp_left (List.mem_cons_of_mem _)
    · split at hc <;> split at hc
      · exact .inl (List.mem_cons_of_mem _ hc)
      · rename_i hv
        rcases List.mem_cons.1 hc with rfl | hc
        · exact .inr ⟨rfl, hv⟩
        · exact .inl (List.mem_cons_of_mem _ hc)
      · exact .inl hc
      · rename_i hv
        rcases List.mem_cons.1 hc with rfl | hc
        · exact .inr ⟨rfl, hv⟩
        · exact .inl hc

/-- A write inside memory keeps the canonical form. -/
theorem poke_wf {m : Memory} (hm : Memory.wf m) {k : Nat} (hk : k < 256) (v : Byte) :
    Memory.wf (Memory.poke m k v) := by
  refine ⟨?_, fun c hc => ?_⟩
  · induction m with
    | nil => by_cases hv : v = Memory.blank <;> simp [Memory.poke, hv]
    | cons d m ih =>
      obtain ⟨a, b⟩ := d
      have htail := Memory.wf_tail hm
      have hab : ∀ d ∈ m, a < d.1 := (List.pairwise_cons.1 hm.1).1
      have hmk : a = k → ∀ d ∈ m, k < d.1 := fun h => h ▸ hab
      have hcons : ¬a < k → ¬a = k → ∀ d ∈ (a, b) :: m, k < d.1 := by
        intro h1 h2 d hd
        rcases List.mem_cons.1 hd with rfl | hd
        · show k < a
          omega
        · have := hab d hd
          omega
      simp only [Memory.poke]
      split
      · rename_i h1
        refine List.pairwise_cons.2 ⟨fun c hc => ?_, ih htail⟩
        rcases mem_poke hc with hc | ⟨rfl, -⟩
        · exact hab c hc
        · exact h1
      · split <;> split
        · exact htail.1
        · rename_i h1 h2 _
          exact List.pairwise_cons.2 ⟨hmk h2, htail.1⟩
        · exact hm.1
        · rename_i h1 h2 _
          exact List.pairwise_cons.2 ⟨hcons h1 h2, hm.1⟩
  · rcases mem_poke hc with hc | ⟨rfl, hv⟩
    · exact hm.2 c hc
    · exact ⟨hk, hv⟩

/-- Placing a byte sequence keeps the canonical form. -/
theorem place_wf {m : Memory} (hm : Memory.wf m) (k : Nat) (bs : List Byte) :
    Memory.wf (Memory.place m k bs) := by
  induction bs generalizing m k with
  | nil => exact hm
  | cons b bs ih =>
    simp only [Memory.place]
    split
    · rename_i hk
      exact ih (poke_wf hm hk b) _
    · exact ih hm _

/-- What memory holds after placing a byte sequence that fits. -/
theorem peek_place {m : Memory} (hm : Memory.wf m) {k : Nat} {bs : List Byte}
    (hfit : k + bs.length ≤ 256) (j : Nat) :
    Memory.peek (Memory.place m k bs) j =
      if k ≤ j ∧ j < k + bs.length then bs.getD (j - k) 0#8 else Memory.peek m j := by
  induction bs generalizing m k with
  | nil => simp [Memory.place, show ¬(k ≤ j ∧ j < k) by omega]
  | cons b bs ih =>
    simp only [List.length_cons] at hfit ⊢
    have hk : k < 256 := by omega
    simp only [Memory.place, if_pos hk]
    rw [ih (poke_wf hm hk b) (by omega), peek_poke hm]
    by_cases h : j = k
    · subst h
      simp [show ¬j + 1 ≤ j by omega]
    · by_cases h1 : k ≤ j ∧ j < k + (bs.length + 1)
      · obtain ⟨n, hn⟩ : ∃ n, j - k = n + 1 := ⟨j - k - 1, by omega⟩
        rw [if_pos (by omega), if_pos h1, hn, show j - (k + 1) = n by omega,
          List.getD_cons_succ]
      · rw [if_neg (by omega), if_neg h, if_neg h1]

/-! ### The checked accesses -/

theorem memRead_of_lt {s : State} {a : Nat} (h : a < 256) :
    memRead s a = .ok (Memory.peek s.mem a) := if_pos h

theorem memRead_of_ge {s : State} {a : Nat} (h : 256 ≤ a) :
    memRead s a = .error (.outOfBounds a) := if_neg (by omega)

theorem memWrite_of_lt {s : State} {a : Nat} (h : a < 256) (v : Nat) :
    memWrite s a v = .ok { s with mem := Memory.poke s.mem a (truncByte v) } := if_pos h

theorem memWrite_of_ge {s : State} {a : Nat} (h : 256 ≤ a) (v : Nat) :
    memWrite s a v = .error (.outOfBounds a) := if_neg (by omega)

/-- A checked write keeps the canonical form. -/
theorem memWrite_wf {s t : State} {a v : Nat} (hm : Memory.wf s.mem) (h : memWrite s a v = .ok t) :
    Memory.wf t.mem := by
  by_cases ha : a < 256
  · rw [memWrite_of_lt ha] at h
    cases h
    exact poke_wf hm ha _
  · rw [memWrite_of_ge (by omega)] at h
    cases h

/-- A checked read depends on memory alone. -/
theorem memRead_congr {s t : State} (h : t.mem = s.mem) (a : Nat) : memRead t a = memRead s a := by
  simp only [memRead, h]

end Sys2Proof.Machine
end

