-- ==== Sys2Proof/Laws/Registers.lean ====
section
/-! SUPPORT. What the register operands read and write (10_state.md R24, R25). -/

namespace Sys2Proof.Machine

theorem readReg_of_lt {s : State} {i : Byte} (h : i.toNat < 8) :
    readReg s i = .ok (s.x[i.toNat]'h) := dif_pos h

theorem readReg_of_ge {s : State} {i : Byte} (h : 8 ≤ i.toNat) :
    readReg s i = .error (.invalidRegister i.toNat) := dif_neg (by omega)

theorem writeReg_of_lt {s : State} {i : Byte} (h : i.toNat < 8) (v : Nat) :
    writeReg s i v = .ok { s with x := s.x.set i.toNat (wrap s.cfg.wordBits v) h } := dif_pos h

theorem writeReg_of_ge {s : State} {i : Byte} (h : 8 ≤ i.toNat) (v : Nat) :
    writeReg s i v = .error (.invalidRegister i.toNat) := dif_neg (by omega)

/-- Every stored register value is in range. -/
theorem wrap_lt (w v : Nat) : wrap w v < 2 ^ w := Nat.mod_lt _ (Nat.two_pow_pos w)

/-- A value in range is stored as it is. -/
theorem wrap_of_lt {w v : Nat} (h : v < 2 ^ w) : wrap w v = v := Nat.mod_eq_of_lt h

/-- A byte is in the range of a register of 8 or more bits. -/
theorem toNat_lt_two_pow {w : Nat} (hw : 8 ≤ w) (b : Byte) : b.toNat < 2 ^ w :=
  Nat.lt_of_lt_of_le b.isLt (Nat.pow_le_pow_right (by decide) hw)

/-- A byte read into a register keeps its value. -/
theorem wrap_zext {w : Nat} (hw : 8 ≤ w) (b : Byte) : wrap w (zext b) = b.toNat :=
  wrap_of_lt (toNat_lt_two_pow hw b)

end Sys2Proof.Machine
end

