-- ==== Sys2Proof/Laws/Exec.lean ====
section
/-! SUPPORT. What each meaning answers, once per shape, and the one inversion lemma of `exec`: everything
an instruction's handler can do (`exec_effect`). -/

namespace Sys2Proof.Machine

/-! ### Shared operations -/

@[simp] theorem commit_ok (s t : State) : commit s (.ok t) = .next t := rfl

@[simp] theorem commit_error (s : State) (e : FatalError) : commit s (.error e) = .next (raise e s) := rfl

/-- A handler's outcome is always a next state. -/
theorem commit_next (s : State) (r : Except FatalError State) : ∃ t, commit s r = .next t := by
  cases r <;> exact ⟨_, rfl⟩

theorem alu_supported {cfg : Config} {op : AluOp} (h : op.supported cfg = true) (s t : Nat) :
    alu cfg op s t = .ok (aluValue cfg.wordBits op s t) := if_pos h

theorem alu_unsupported {cfg : Config} {op : AluOp} (h : op.supported cfg = false) (s t : Nat) :
    alu cfg op s t = .error (.unsupportedOperation op) := by
  simp only [alu, h, Bool.false_eq_true, if_false]

/-- A two-operand ALU instruction whose registers exist and whose operation is supported. -/
theorem aluTwo_ok {op : AluOp} {a b : Byte} {s : State} (ha : a.toNat < 8) (hb : b.toNat < 8)
    (h : op.supported s.cfg = true) :
    aluTwo op a b s = .ok { s with
      x := s.x.set a.toNat (wrap s.cfg.wordBits (aluValue s.cfg.wordBits op s.x[a.toNat] s.x[b.toNat])) } := by
  simp only [aluTwo, readReg_of_lt ha, readReg_of_lt hb, alu_supported h, writeReg_of_lt ha, bind, Except.bind]

theorem aluTwo_left {op : AluOp} {a b : Byte} {s : State} (ha : 8 ≤ a.toNat) :
    aluTwo op a b s = .error (.invalidRegister a.toNat) := by
  simp only [aluTwo, readReg_of_ge ha, bind, Except.bind]

theorem aluTwo_right {op : AluOp} {a b : Byte} {s : State} (ha : a.toNat < 8) (hb : 8 ≤ b.toNat) :
    aluTwo op a b s = .error (.invalidRegister b.toNat) := by
  simp only [aluTwo, readReg_of_lt ha, readReg_of_ge hb, bind, Except.bind]

theorem aluTwo_unsupported {op : AluOp} {a b : Byte} {s : State} (ha : a.toNat < 8)
    (hb : b.toNat < 8) (h : op.supported s.cfg = false) :
    aluTwo op a b s = .error (.unsupportedOperation op) := by
  simp only [aluTwo, readReg_of_lt ha, readReg_of_lt hb, alu_unsupported h, bind, Except.bind]

theorem aluOne_ok {op : AluOp} {r : Byte} {s : State} (hr : r.toNat < 8)
    (h : op.supported s.cfg = true) :
    aluOne op r s = .ok { s with
      x := s.x.set r.toNat (wrap s.cfg.wordBits (aluValue s.cfg.wordBits op s.x[r.toNat] 0)) } := by
  simp only [aluOne, readReg_of_lt hr, alu_supported h, writeReg_of_lt hr, bind, Except.bind]

theorem aluOne_invalid {op : AluOp} {r : Byte} {s : State} (hr : 8 ≤ r.toNat) :
    aluOne op r s = .error (.invalidRegister r.toNat) := by
  simp only [aluOne, readReg_of_ge hr, bind, Except.bind]

theorem aluOne_unsupported {op : AluOp} {r : Byte} {s : State} (hr : r.toNat < 8)
    (h : op.supported s.cfg = false) :
    aluOne op r s = .error (.unsupportedOperation op) := by
  simp only [aluOne, readReg_of_lt hr, alu_unsupported h, bind, Except.bind]

theorem jumpTo_ok {r : Byte} {s : State} (hr : r.toNat < 8) :
    jumpTo r s = .ok (setPc s s.x[r.toNat]) := by
  simp only [jumpTo, readReg_of_lt hr, bind, Except.bind]

theorem jumpTo_invalid {r : Byte} {s : State} (hr : 8 ≤ r.toNat) :
    jumpTo r s = .error (.invalidRegister r.toNat) := by
  simp only [jumpTo, readReg_of_ge hr, bind, Except.bind]

/-! ### The shapes of the instructions -/

/-- The two-operand ALU instructions, with their operation and operands. -/
def aluTwoForm : Instr → Option (AluOp × Byte × Byte)
  | .mul a b => some (.mul, a, b)
  | .add a b => some (.add, a, b)
  | .sub a b => some (.sub, a, b)
  | .and a b => some (.and, a, b)
  | .or a b => some (.or, a, b)
  | .xor a b => some (.xor, a, b)
  | .shl a b => some (.shl, a, b)
  | .shr a b => some (.shr, a, b)
  | .hlt => none
  | .push _ => none
  | .pop _ => none
  | .prn _ => none
  | .jmp _ => none
  | .jeq _ => none
  | .jne _ => none
  | .ldi _ _ => none
  | .cmp _ _ => none
  | .not _ => none

/-- The jumps, with whether they are taken and their operand. -/
def jumpForm (s : State) : Instr → Option (Bool × Byte)
  | .jmp r => some (true, r)
  | .jeq r => some (flagE s.fl, r)
  | .jne r => some (!flagE s.fl, r)
  | .mul _ _ => none
  | .add _ _ => none
  | .sub _ _ => none
  | .and _ _ => none
  | .or _ _ => none
  | .xor _ _ => none
  | .shl _ _ => none
  | .shr _ _ => none
  | .hlt => none
  | .push _ => none
  | .pop _ => none
  | .prn _ => none
  | .ldi _ _ => none
  | .cmp _ _ => none
  | .not _ => none

theorem exec_aluTwo {i : Instr} {op : AluOp} {a b : Byte} (h : aluTwoForm i = some (op, a, b))
    (s : State) : exec i s = commit s (aluTwo op a b s) := by
  cases i <;> simp only [aluTwoForm, reduceCtorEq, Option.some.injEq, Prod.mk.injEq] at h <;>
    (obtain ⟨rfl, rfl, rfl⟩ := h; rfl)

theorem exec_jump {i : Instr} {taken : Bool} {r : Byte} {s : State}
    (h : jumpForm s i = some (taken, r)) : exec i s = commit s (jumpIf taken r s) := by
  cases i <;> simp only [jumpForm, reduceCtorEq, Option.some.injEq, Prod.mk.injEq] at h <;>
    (obtain ⟨rfl, rfl⟩ := h; rfl)

theorem exec_push_ok {r : Byte} {s : State} (hr : r.toNat < 8) (ha : pushAddress s < 256) :
    exec (.push r) s = .next { setSp s (pushAddress s) with
      mem := Memory.poke s.mem (pushAddress s) (truncByte (setSp s (pushAddress s)).x[r.toNat]) } := by
  simp only [exec, execPush, readReg_of_lt hr, memWrite_of_lt ha, bind, Except.bind, commit_ok, setSp_mem]

theorem exec_push_invalid {r : Byte} {s : State} (hr : 8 ≤ r.toNat) :
    exec (.push r) s = .next (raise (.invalidRegister r.toNat) s) := by
  simp only [exec, execPush, readReg_of_ge hr, bind, Except.bind, commit_error]

theorem exec_push_outside {r : Byte} {s : State} (hr : r.toNat < 8) (ha : 256 ≤ pushAddress s) :
    exec (.push r) s = .next (raise (.outOfBounds (pushAddress s)) s) := by
  simp only [exec, execPush, readReg_of_lt hr, memWrite_of_ge ha, bind, Except.bind, commit_error]

/-- The state in which POP has written `x[r]` and not yet incremented the stack pointer. -/
def popped (r : Byte) (h : r.toNat < 8) (s : State) : State :=
  { s with x := s.x.set r.toNat (wrap s.cfg.wordBits (zext (Memory.peek s.mem (sp s)))) h }

theorem exec_pop_ok {r : Byte} {s : State} (hr : r.toNat < 8) (ha : sp s < 256) :
    exec (.pop r) s = .next (setSp (popped r hr s) (sp (popped r hr s) + 1)) := by
  simp only [exec, execPop, memRead_of_lt ha, writeReg_of_lt hr, bind, Except.bind, commit_ok, popped]

theorem exec_pop_outside {r : Byte} {s : State} (ha : 256 ≤ sp s) :
    exec (.pop r) s = .next (raise (.outOfBounds (sp s)) s) := by
  simp only [exec, execPop, memRead_of_ge ha, bind, Except.bind, commit_error]

theorem exec_pop_invalid {r : Byte} {s : State} (hr : 8 ≤ r.toNat) (ha : sp s < 256) :
    exec (.pop r) s = .next (raise (.invalidRegister r.toNat) s) := by
  simp only [exec, execPop, memRead_of_lt ha, writeReg_of_ge hr, bind, Except.bind, commit_error]

theorem exec_prn_ok {r : Byte} {s : State} (hr : r.toNat < 8) :
    exec (.prn r) s = .next (emit s s.x[r.toNat]) := by
  simp only [exec, execPrn, readReg_of_lt hr, bind, Except.bind, commit_ok]

theorem exec_prn_invalid {r : Byte} {s : State} (hr : 8 ≤ r.toNat) :
    exec (.prn r) s = .next (raise (.invalidRegister r.toNat) s) := by
  simp only [exec, execPrn, readReg_of_ge hr, bind, Except.bind, commit_error]

theorem exec_ldi_ok {r v : Byte} {s : State} (hr : r.toNat < 8) :
    exec (.ldi r v) s = .next { s with x := s.x.set r.toNat (wrap s.cfg.wordBits (zext v)) } := by
  simp only [exec, execLdi, immediate, writeReg_of_lt hr, commit_ok]

theorem exec_ldi_invalid {r v : Byte} {s : State} (hr : 8 ≤ r.toNat) :
    exec (.ldi r v) s = .next (raise (.invalidRegister r.toNat) s) := by
  simp only [exec, execLdi, writeReg_of_ge hr, commit_error]

theorem exec_cmp_ok {a b : Byte} {s : State} (ha : a.toNat < 8) (hb : b.toNat < 8) :
    exec (.cmp a b) s = .next (setFlags s (compareFlags s.x[a.toNat] s.x[b.toNat])) := by
  simp only [exec, execCmp, readReg_of_lt ha, readReg_of_lt hb, bind, Except.bind, commit_ok]

theorem exec_cmp_left {a b : Byte} {s : State} (ha : 8 ≤ a.toNat) :
    exec (.cmp a b) s = .next (raise (.invalidRegister a.toNat) s) := by
  simp only [exec, execCmp, readReg_of_ge ha, bind, Except.bind, commit_error]

theorem exec_cmp_right {a b : Byte} {s : State} (ha : a.toNat < 8) (hb : 8 ≤ b.toNat) :
    exec (.cmp a b) s = .next (raise (.invalidRegister b.toNat) s) := by
  simp only [exec, execCmp, readReg_of_lt ha, readReg_of_ge hb, bind, Except.bind, commit_error]

/-- Every meaning answers a next state. -/
theorem exec_next (i : Instr) (s : State) : ∃ t, exec i s = .next t := by
  cases i with
  | hlt => exact ⟨_, rfl⟩
  | _ => exact commit_next _ _

/-! ### Everything a handler can do -/

/-- The errors a handler can raise: the stack address outside memory, a bad register index, or, for an
instruction of the profile ALU_EXT while the profile is off, an operation the ALU lacks. -/
def HandlerError (i : Instr) (s : State) : FatalError → Prop
  | .outOfBounds a =>
    256 ≤ a ∧ ((∃ r, i = .push r ∧ a = pushAddress s) ∨ (∃ r, i = .pop r ∧ a = sp s))
  | .invalidRegister k => 8 ≤ k
  | .unsupportedOperation _ => s.cfg.aluExt = false ∧ i.opcode ∈ extOpcodes
  | .unknownOpcode _ => False

/-- What a handler can do to a state. -/
inductive Effect (s : State) : Instr → State → Prop where
  | fails (i : Instr) (e : FatalError) (he : HandlerError i s e) : Effect s i (raise e s)
  | halts : Effect s .hlt (setHalt s)
  | loads (r v : Byte) (hr : r.toNat < 8) :
      Effect s (.ldi r v) { s with x := s.x.set r.toNat (wrap s.cfg.wordBits (zext v)) }
  | prints (r : Byte) (hr : r.toNat < 8) : Effect s (.prn r) (emit s s.x[r.toNat])
  | computes (i : Instr) (op : AluOp) (a b : Byte) (ha : a.toNat < 8) (hb : b.toNat < 8)
      (hi : aluTwoForm i = some (op, a, b)) :
      Effect s i { s with
        x := s.x.set a.toNat (wrap s.cfg.wordBits (aluValue s.cfg.wordBits op s.x[a.toNat] s.x[b.toNat])) }
  | complements (r : Byte) (hr : r.toNat < 8) :
      Effect s (.not r) { s with
        x := s.x.set r.toNat (wrap s.cfg.wordBits (aluValue s.cfg.wordBits .not s.x[r.toNat] 0)) }
  | pushes (r : Byte) (hr : r.toNat < 8) (ha : pushAddress s < 256) :
      Effect s (.push r) { setSp s (pushAddress s) with
        mem := Memory.poke s.mem (pushAddress s) (truncByte (setSp s (pushAddress s)).x[r.toNat]) }
  | pops (r : Byte) (hr : r.toNat < 8) (ha : sp s < 256) :
      Effect s (.pop r) (setSp (popped r hr s) (sp (popped r hr s) + 1))
  | compares (a b : Byte) (ha : a.toNat < 8) (hb : b.toNat < 8) :
      Effect s (.cmp a b) (setFlags s (compareFlags s.x[a.toNat] s.x[b.toNat]))
  | jumps (i : Instr) (r : Byte) (hr : r.toNat < 8) (hi : jumpForm s i = some (true, r)) :
      Effect s i (setPc s s.x[r.toNat])
  | falls (i : Instr) (r : Byte) (hi : jumpForm s i = some (false, r)) :
      Effect s i (setPc s (s.pc + 2))

/-- An ALU operation that is not supported belongs to an instruction of the profile, and it is off. -/
theorem unsupported_ext {cfg : Config} {i : Instr} {op : AluOp} {a b : Byte}
    (hi : aluTwoForm i = some (op, a, b)) (h : op.supported cfg = false) :
    cfg.aluExt = false ∧ i.opcode ∈ extOpcodes := by
  cases i <;> simp only [aluTwoForm, reduceCtorEq, Option.some.injEq, Prod.mk.injEq] at hi <;>
    (obtain ⟨rfl, rfl, rfl⟩ := hi
     first
     | (exact ⟨h, by simp only [Instr.opcode]; decide⟩)
     | (exact absurd h (by simp [AluOp.supported])))

theorem aluTwo_effect {i : Instr} {op : AluOp} {a b : Byte} {s t : State}
    (hi : aluTwoForm i = some (op, a, b)) (h : exec i s = .next t) : Effect s i t := by
  rw [exec_aluTwo hi] at h
  by_cases ha : a.toNat < 8
  · by_cases hb : b.toNat < 8
    · cases hs : op.supported s.cfg with
      | true =>
        rw [aluTwo_ok ha hb hs] at h
        cases h
        exact .computes i op a b ha hb hi
      | false =>
        rw [aluTwo_unsupported ha hb hs] at h
        cases h
        exact .fails i _ (unsupported_ext hi hs)
    · rw [aluTwo_right ha (by omega)] at h
      cases h
      exact .fails i _ (show 8 ≤ b.toNat by omega)
  · rw [aluTwo_left (by omega)] at h
    cases h
    exact .fails i _ (show 8 ≤ a.toNat by omega)

theorem jump_effect {i : Instr} {taken : Bool} {r : Byte} {s t : State}
    (hi : jumpForm s i = some (taken, r)) (h : exec i s = .next t) : Effect s i t := by
  rw [exec_jump hi] at h
  cases taken with
  | false =>
    cases h
    exact .falls i r hi
  | true =>
    simp only [jumpIf, if_true] at h
    by_cases hr : r.toNat < 8
    · rw [jumpTo_ok hr] at h
      cases h
      exact .jumps i r hr hi
    · rw [jumpTo_invalid (by omega)] at h
      cases h
      exact .fails i _ (show 8 ≤ r.toNat by omega)

theorem push_effect {r : Byte} {s t : State} (h : exec (.push r) s = .next t) :
    Effect s (.push r) t := by
  by_cases hr : r.toNat < 8
  · by_cases ha : pushAddress s < 256
    · rw [exec_push_ok hr ha] at h
      cases h
      exact .pushes r hr ha
    · rw [exec_push_outside hr (by omega)] at h
      cases h
      exact .fails _ _ ⟨Nat.le_of_not_lt ha, .inl ⟨r, rfl, rfl⟩⟩
  · rw [exec_push_invalid (by omega)] at h
    cases h
    exact .fails _ _ (show 8 ≤ r.toNat by omega)

theorem pop_effect {r : Byte} {s t : State} (h : exec (.pop r) s = .next t) :
    Effect s (.pop r) t := by
  by_cases ha : sp s < 256
  · by_cases hr : r.toNat < 8
    · rw [exec_pop_ok hr ha] at h
      cases h
      exact .pops r hr ha
    · rw [exec_pop_invalid (by omega) ha] at h
      cases h
      exact .fails _ _ (show 8 ≤ r.toNat by omega)
  · rw [exec_pop_outside (by omega)] at h
    cases h
    exact .fails _ _ ⟨Nat.le_of_not_lt ha, .inr ⟨r, rfl, rfl⟩⟩

theorem prn_effect {r : Byte} {s t : State} (h : exec (.prn r) s = .next t) :
    Effect s (.prn r) t := by
  by_cases hr : r.toNat < 8
  · rw [exec_prn_ok hr] at h
    cases h
    exact .prints r hr
  · rw [exec_prn_invalid (by omega)] at h
    cases h
    exact .fails _ _ (show 8 ≤ r.toNat by omega)

theorem ldi_effect {r v : Byte} {s t : State} (h : exec (.ldi r v) s = .next t) :
    Effect s (.ldi r v) t := by
  by_cases hr : r.toNat < 8
  · rw [exec_ldi_ok hr] at h
    cases h
    exact .loads r v hr
  · rw [exec_ldi_invalid (by omega)] at h
    cases h
    exact .fails _ _ (show 8 ≤ r.toNat by omega)

theorem cmp_effect {a b : Byte} {s t : State} (h : exec (.cmp a b) s = .next t) :
    Effect s (.cmp a b) t := by
  by_cases ha : a.toNat < 8
  · by_cases hb : b.toNat < 8
    · rw [exec_cmp_ok ha hb] at h
      cases h
      exact .compares a b ha hb
    · rw [exec_cmp_right ha (by omega)] at h
      cases h
      exact .fails _ _ (show 8 ≤ b.toNat by omega)
  · rw [exec_cmp_left (by omega)] at h
    cases h
    exact .fails _ _ (show 8 ≤ a.toNat by omega)

theorem not_effect {r : Byte} {s t : State} (h : exec (.not r) s = .next t) :
    Effect s (.not r) t := by
  have he : exec (.not r) s = commit s (aluOne .not r s) := rfl
  rw [he] at h
  by_cases hr : r.toNat < 8
  · cases hs : AluOp.not.supported s.cfg with
    | true =>
      rw [aluOne_ok hr hs] at h
      cases h
      exact .complements r hr
    | false =>
      rw [aluOne_unsupported hr hs] at h
      cases h
      exact .fails _ _ ⟨hs, by simp only [Instr.opcode]; decide⟩
  · rw [aluOne_invalid (by omega)] at h
    cases h
    exact .fails _ _ (show 8 ≤ r.toNat by omega)

/-- The inversion lemma of `exec`. -/
theorem exec_effect {i : Instr} {s t : State} (h : exec i s = .next t) : Effect s i t := by
  cases i with
  | hlt =>
    cases h
    exact .halts
  | push r => exact push_effect h
  | pop r => exact pop_effect h
  | prn r => exact prn_effect h
  | jmp r => exact jump_effect rfl h
  | jeq r => exact jump_effect rfl h
  | jne r => exact jump_effect rfl h
  | ldi r v => exact ldi_effect h
  | mul a b => exact aluTwo_effect rfl h
  | cmp a b => exact cmp_effect h
  | add a b => exact aluTwo_effect rfl h
  | sub a b => exact aluTwo_effect rfl h
  | and a b => exact aluTwo_effect rfl h
  | or a b => exact aluTwo_effect rfl h
  | xor a b => exact aluTwo_effect rfl h
  | not r => exact not_effect h
  | shl a b => exact aluTwo_effect rfl h
  | shr a b => exact aluTwo_effect rfl h

/-! ### What follows for single fields -/

/-- A handler leaves the engine state as it was, or raises an error. -/
theorem exec_state {i : Instr} {s t : State} (h : exec i s = .next t) :
    t.state = s.state ∨ t.state = .faulted := by
  cases exec_effect h <;> first | exact .inl rfl | exact .inr rfl

/-- A handler leaves the halt flag as it was, unless it is HLT. -/
theorem exec_halt {i : Instr} {s t : State} (h : exec i s = .next t) : t.halt = s.halt ∨ i = .hlt := by
  cases exec_effect h <;> first | exact .inl rfl | exact .inr rfl

/-- A handler that ends in FAULTED from another state raised an error the handler can raise. -/
theorem exec_faulted {i : Instr} {s t : State} (h : exec i s = .next t) (hs : s.state ≠ .faulted)
    (ht : t.state = .faulted) : ∃ e, HandlerError i s e ∧ t = raise e s := by
  cases exec_effect h <;> first | exact ⟨_, ‹HandlerError i s _›, rfl⟩ | exact absurd ht hs

/-- A handler changes memory only as PUSH does, inside memory. -/
theorem exec_mem {i : Instr} {s t : State} (h : exec i s = .next t) :
    t.mem = s.mem ∨ ∃ r v, i = .push r ∧ pushAddress s < 256 ∧
      t.mem = Memory.poke s.mem (pushAddress s) v := by
  cases exec_effect h <;> first | exact .inl rfl | exact .inr ⟨_, _, rfl, ‹_›, rfl⟩

/-- Two fatal errors with the same record are the same error. -/
theorem raise_inj {e f : FatalError} {s : State} (h : raise e s = raise f s) : e = f := by
  have hd : e.detail = f.detail := congrArg FaultRecord.detail (Option.some.inj (congrArg State.fault h))
  cases e <;> cases f <;> cases hd <;> rfl

end Sys2Proof.Machine
end

