-- ==== Sys2Proof/Laws/Loader.lean ====
section
/-! SUPPORT. What `load_program` does, and what trimming and cutting a line of a program image leave
(70_reset_and_hazards.md R263, R265). -/

namespace Sys2Proof.Machine

/-! ### load_program -/

theorem loadProgram_fits {bytes : List Byte} {start : Nat} (h : start + bytes.length ≤ 256) (s : State) :
    loadProgram bytes start s = .ok { s with mem := Memory.place s.mem start bytes } := if_pos h

theorem loadProgram_overflows {bytes : List Byte} {start : Nat} (h : 256 < start + bytes.length) (s : State) :
    loadProgram bytes start s = .error (.outOfBounds (max start 256)) := if_neg (by omega)

/-- Loading keeps the canonical form. -/
theorem loadProgram_wf {bytes : List Byte} {start : Nat} {s t : State} (hm : Memory.wf s.mem)
    (h : loadProgram bytes start s = .ok t) : Memory.wf t.mem := by
  by_cases hf : start + bytes.length ≤ 256
  · rw [loadProgram_fits hf] at h
    cases h
    exact place_wf hm start bytes
  · rw [loadProgram_overflows (by omega)] at h
    cases h

/-! ### Lines -/

/-- Blank characters are no comment mark. -/
theorem blank_ne_hash {c : Char} (h : isBlankChar c = true) : (c != '#') = true := by
  by_contra hc
  simp only [bne_iff_ne, ne_eq, not_not] at hc
  subst hc
  exact absurd h (by decide)

/-- Leading characters that are no comment mark stand before the comment. -/
theorem dropComment_append {pre : List Char} (h : ∀ c ∈ pre, (c != '#') = true) (rest : List Char) :
    dropComment (pre ++ rest) = pre ++ dropComment rest := by
  induction pre with
  | nil => rfl
  | cons c cs ih =>
    have hc := h c (List.mem_cons_self ..)
    have ih := ih fun d hd => h d (List.mem_cons_of_mem _ hd)
    simp only [dropComment, List.cons_append, List.takeWhile_cons, hc, if_true] at ih ⊢
    rw [ih]

/-- Leading blank characters do not matter. -/
theorem trimBlank_append {pre : List Char} (h : pre.all isBlankChar = true) (rest : List Char) :
    trimBlank (pre ++ rest) = trimBlank rest := by
  have hd : (pre ++ rest).dropWhile isBlankChar = rest.dropWhile isBlankChar := by
    induction pre with
    | nil => rfl
    | cons c cs ih =>
      simp only [List.all_cons, Bool.and_eq_true] at h
      simp only [List.cons_append, List.dropWhile_cons, h.1, if_true, ih h.2]
  simp only [trimBlank, hd]

/-- Dropping the trailing blanks of a line keeps a part that is not blank. -/
theorem dropWhile_append_solid (l : List Char) {m : List Char} (h : ∀ c ∈ m, isBlankChar c = false) :
    (l ++ m).dropWhile isBlankChar = l.dropWhile isBlankChar ++ m := by
  induction l with
  | nil =>
    cases m with
    | nil => rfl
    | cons c m => simp [h c (List.mem_cons_self ..)]
  | cons c l ih =>
    simp only [List.cons_append, List.dropWhile_cons]
    split <;> simp_all

/-- A line that begins with characters which are not blank keeps them. -/
theorem trimBlank_solid {l : List Char} (hne : l ≠ []) (h : ∀ c ∈ l, isBlankChar c = false)
    (rest : List Char) :
    trimBlank (l ++ rest) = l ++ (rest.reverse.dropWhile isBlankChar).reverse := by
  obtain ⟨c, cs, rfl⟩ := List.exists_cons_of_ne_nil hne
  have hc := h c (List.mem_cons_self ..)
  simp only [trimBlank, List.cons_append, List.dropWhile_cons, hc, Bool.false_eq_true, if_false]
  rw [← List.cons_append, List.reverse_append, dropWhile_append_solid _ fun d hd => h d (List.mem_reverse.1 hd),
    List.reverse_append, List.reverse_reverse, List.cons_append]

/-- A text without a line feed is one line. -/
theorem splitLines_line {l : List Char} (h : '\n' ∉ l) : splitLines l = [l] := by
  induction l with
  | nil => rfl
  | cons c l ih =>
    simp only [List.mem_cons, not_or] at h
    simp only [splitLines, if_neg (Ne.symm h.1), ih h.2]

/-- What stands before a line feed is a line. -/
theorem splitLines_append {l : List Char} (h : '\n' ∉ l) (rest : List Char) :
    splitLines (l ++ '\n' :: rest) = l :: splitLines rest := by
  induction l with
  | nil => simp only [List.nil_append, splitLines, if_true]
  | cons c l ih =>
    simp only [List.mem_cons, not_or] at h
    simp only [List.cons_append, splitLines, if_neg (Ne.symm h.1), ih h.2]

/-- A binary digit is neither blank nor a comment mark. -/
theorem binaryDigit_solid {c : Char} (h : isBinaryDigit c = true) :
    isBlankChar c = false ∧ (c != '#') = true := by
  simp only [isBinaryDigit, Bool.or_eq_true, beq_iff_eq] at h
  rcases h with rfl | rfl <;> decide

end Sys2Proof.Machine
end

