-- ==== Sys2Proof/Laws/PerInstr.lean ====
section
/-! SUPPORT. The family `EncodedLength`: an instruction is its opcode byte and as many operand bytes as the
instruction table gives its opcode (30_encoding.md R70, R75). -/

namespace Sys2Proof.Laws.EncodedLength

/-- Under any parameters the encoding has one byte more than the opcode has operands. -/
def Statement (i : Instr) : Prop := ∀ cfg : Config, (encode cfg i).length = i.opcode.operands + 1

theorem hlt : Statement .hlt := fun _ => rfl

theorem push (r : Byte) : Statement (.push r) := fun _ => rfl

theorem pop (r : Byte) : Statement (.pop r) := fun _ => rfl

theorem prn (r : Byte) : Statement (.prn r) := fun _ => rfl

theorem jmp (r : Byte) : Statement (.jmp r) := fun _ => rfl

theorem jeq (r : Byte) : Statement (.jeq r) := fun _ => rfl

theorem jne (r : Byte) : Statement (.jne r) := fun _ => rfl

theorem ldi (r v : Byte) : Statement (.ldi r v) := fun _ => rfl

theorem mul (a b : Byte) : Statement (.mul a b) := fun _ => rfl

theorem cmp (a b : Byte) : Statement (.cmp a b) := fun _ => rfl

theorem add (a b : Byte) : Statement (.add a b) := fun _ => rfl

theorem sub (a b : Byte) : Statement (.sub a b) := fun _ => rfl

theorem and (a b : Byte) : Statement (.and a b) := fun _ => rfl

theorem or (a b : Byte) : Statement (.or a b) := fun _ => rfl

theorem xor (a b : Byte) : Statement (.xor a b) := fun _ => rfl

theorem not (r : Byte) : Statement (.not r) := fun _ => rfl

theorem shl (a b : Byte) : Statement (.shl a b) := fun _ => rfl

theorem shr (a b : Byte) : Statement (.shr a b) := fun _ => rfl

end Sys2Proof.Laws.EncodedLength
end

