-- ==== Sys2Proof/Laws/Step.lean ====
section
/-! SUPPORT. What fetch gives, what surrounds a handler in a step, and the one inversion lemma of `step`:
everything a step can do (`step_cases`). -/

namespace Sys2Proof.Machine

/-! ### Fetch -/

theorem fetch_inside {s : State} (h : s.pc + 2 < 256) :
    fetch s = .ok (Memory.peek s.mem s.pc, Memory.peek s.mem (s.pc + 1), Memory.peek s.mem (s.pc + 2)) := by
  simp only [fetch, memRead_of_lt (show s.pc < 256 by omega),
    memRead_of_lt (show s.pc + 1 < 256 by omega), memRead_of_lt h]

theorem fetch_first {s : State} (h : 256 ≤ s.pc) : fetch s = .error (.outOfBounds s.pc) := by
  simp only [fetch, memRead_of_ge h]

theorem fetch_second {s : State} (h0 : s.pc < 256) (h : 256 ≤ s.pc + 1) :
    fetch s = .error (.outOfBounds (s.pc + 1)) := by
  simp only [fetch, memRead_of_lt h0, memRead_of_ge h]

theorem fetch_third {s : State} (h0 : s.pc + 1 < 256) (h : 256 ≤ s.pc + 2) :
    fetch s = .error (.outOfBounds (s.pc + 2)) := by
  simp only [fetch, memRead_of_lt (show s.pc < 256 by omega), memRead_of_lt h0, memRead_of_ge h]

/-- Three successful reads are a fetch. -/
theorem fetch_of_reads {s : State} {op b1 b2 : Byte} (h0 : memRead s s.pc = .ok op)
    (h1 : memRead s (s.pc + 1) = .ok b1) (h2 : memRead s (s.pc + 2) = .ok b2) :
    fetch s = .ok (op, b1, b2) := by
  simp only [fetch, h0, h1, h2]

/-- What a successful fetch says. -/
theorem fetch_ok {s : State} {op b1 b2 : Byte} (h : fetch s = .ok (op, b1, b2)) :
    s.pc + 2 < 256 ∧ op = Memory.peek s.mem s.pc ∧ b1 = Memory.peek s.mem (s.pc + 1) ∧
      b2 = Memory.peek s.mem (s.pc + 2) := by
  by_cases h0 : 256 ≤ s.pc
  · rw [fetch_first h0] at h
    cases h
  by_cases h1 : 256 ≤ s.pc + 1
  · rw [fetch_second (by omega) h1] at h
    cases h
  by_cases h2 : 256 ≤ s.pc + 2
  · rw [fetch_third (by omega) h2] at h
    cases h
  rw [fetch_inside (by omega)] at h
  cases h
  exact ⟨by omega, rfl, rfl, rfl⟩

/-- A failed fetch failed at an address outside memory. -/
theorem fetch_error {s : State} {e : FatalError} (h : fetch s = .error e) :
    256 ≤ s.pc + 2 ∧ ∃ a, 256 ≤ a ∧ e = .outOfBounds a := by
  by_cases h0 : 256 ≤ s.pc
  · rw [fetch_first h0] at h
    cases h
    exact ⟨by omega, _, h0, rfl⟩
  by_cases h1 : 256 ≤ s.pc + 1
  · rw [fetch_second (by omega) h1] at h
    cases h
    exact ⟨by omega, _, h1, rfl⟩
  by_cases h2 : 256 ≤ s.pc + 2
  · rw [fetch_third (by omega) h2] at h
    cases h
    exact ⟨h2, _, h2, rfl⟩
  rw [fetch_inside (by omega)] at h
  cases h

/-! ### The engine's part of a step -/

theorem haltTransition_running {s : State} (h : s.halt = false) : haltTransition s = s := by
  simp only [haltTransition, h, Bool.false_eq_true, if_false]

theorem haltTransition_halting {s : State} (h : s.halt = true) :
    haltTransition s = { s with state := .halted } := by
  simp only [haltTransition, h, if_true]

/-- The halt transition touches the engine state alone. -/
theorem haltTransition_eq (s : State) :
    haltTransition s = { s with state := if s.halt then .halted else s.state } := by
  unfold haltTransition
  split <;> rfl

theorem advance_keeps {op : Byte} (h : setsPc op = true) (pc : Nat) (s : State) : advance op pc s = s := by
  simp only [advance, h, if_true]

theorem advance_moves {op : Byte} (h : setsPc op = false) (pc : Nat) (s : State) :
    advance op pc s = setPc s (pc + operandCount op + 1) := by
  simp only [advance, h, Bool.false_eq_true, if_false]

theorem endStep_faulted {t : State} (h : t.state = .faulted) (op : Byte) (pc : Nat) :
    endStep op pc t = t := by
  simp only [endStep, h]

theorem endStep_running {t : State} (h : t.state = .running) (op : Byte) (pc : Nat) :
    endStep op pc t = haltTransition (advance op pc t) := by
  simp only [endStep, h]

/-- The advance touches the pc alone. -/
theorem advance_eq (op : Byte) (pc : Nat) (s : State) :
    advance op pc s = setPc s (if setsPc op then s.pc else pc + operandCount op + 1) := by
  cases h : setsPc op with
  | true => rw [advance_keeps h]; rfl
  | false => rw [advance_moves h]; rfl

/-- The end of a step after a handler that left the engine running and the halt flag clear. -/
theorem endStep_going {t : State} (h : t.state = .running) (hh : t.halt = false) (op : Byte) (pc : Nat) :
    endStep op pc t = { t with pc := if setsPc op then t.pc else pc + operandCount op + 1 } := by
  rw [endStep_running h, haltTransition_running (by rw [advance_eq]; exact hh), advance_eq]
  rfl

/-- The end of a step touches the pc and the engine state alone. -/
theorem endStep_eq (op : Byte) (pc : Nat) (t : State) :
    ∃ p e, endStep op pc t = { t with pc := p, state := e } := by
  cases hs : t.state with
  | faulted => exact ⟨t.pc, t.state, endStep_faulted hs op pc⟩
  | running =>
    simp only [endStep, hs, advance_eq, haltTransition_eq]
    exact ⟨_, _, rfl⟩
  | halted =>
    simp only [endStep, hs, advance_eq, haltTransition_eq]
    exact ⟨_, _, rfl⟩

/-! ### One step -/

/-- A step of a running engine whose fetch fails. -/
theorem step_fetch_error {s : State} {e : FatalError} (hs : s.state = .running)
    (h : fetch s = .error e) : step s = .next (raise e s) := by
  simp only [step, hs, h]

/-- A step of a running engine that decodes an instruction. -/
theorem step_instr {s t : State} {op b1 b2 : Byte} {i : Instr} (hs : s.state = .running)
    (hf : fetch s = .ok (op, b1, b2)) (hd : decode s.cfg op b1 b2 = .ok i)
    (he : exec i s = .next t) : step s = .next (endStep op s.pc t) := by
  simp only [step, hs, hf, hd, he, finish]

/-- A fetch at pc 254 and beyond fails at the first of its addresses outside memory. -/
theorem step_fetch_outside {s : State} (hs : s.state = .running) (h : 254 ≤ s.pc) :
    step s = .next (raise (.outOfBounds (max s.pc 256)) s) := by
  by_cases h0 : 256 ≤ s.pc
  · rw [step_fetch_error hs (fetch_first h0), Nat.max_eq_left h0]
  · by_cases h1 : 256 ≤ s.pc + 1
    · rw [step_fetch_error hs (fetch_second (by omega) h1), show max s.pc 256 = s.pc + 1 by omega]
    · rw [step_fetch_error hs (fetch_third (by omega) (by omega)), show max s.pc 256 = s.pc + 2 by omega]

/-- A step whose handler raised an error is that error taken. -/
theorem step_faulting {s t : State} {op b1 b2 : Byte} {i : Instr} (hs : s.state = .running)
    (hf : fetch s = .ok (op, b1, b2)) (hd : decode s.cfg op b1 b2 = .ok i) (he : exec i s = .next t)
    (ht : t.state = .faulted) : step s = .next t := by
  rw [step_instr hs hf hd he, endStep_faulted ht]

/-- A step on the byte of an active opcode, whose handler left the engine running: the handler's state, with the
pc moved by the decoded size unless the opcode is a jump. -/
theorem step_opcode {s t : State} {o : Opcode} {b1 b2 : Byte} (hw : s.cfg.WellFormed)
    (ho : o ∈ s.cfg.active) (hs : s.state = .running)
    (hf : fetch s = .ok (s.cfg.opcodes.byteOf o, b1, b2)) (he : exec (assemble o b1 b2) s = .next t)
    (ht : t.state = .running) (hh : t.halt = false) :
    step s = .next { t with pc := if o.isJump then t.pc else s.pc + o.operands + 1 } := by
  obtain ⟨-, -, hdis, hcnt, hj, ha⟩ := hw
  rw [step_instr hs hf (decode_byteOf hdis ho b1 b2) he, endStep_going ht hh, setsPc_byteOf hj ha ho,
    operandCount_byteOf hcnt ho]

/-- A step of a running engine on an unknown opcode. -/
theorem step_unknown {s : State} {op b1 b2 : Byte} (hs : s.state = .running)
    (hf : fetch s = .ok (op, b1, b2)) (hd : s.cfg.opcodeOf op = none) :
    step s = unknownStep op s := by
  simp only [step, hs, hf, decode_of_none hd]

theorem unknownStep_noop {s : State} (h : s.cfg.unknownOpcode = .noop) (op : Byte) :
    unknownStep op s = .next (haltTransition (setPc s (s.pc + operandCount op + 1))) := by
  simp only [unknownStep, h]

theorem unknownStep_fault {s : State} (h : s.cfg.unknownOpcode = .fault) (op : Byte) :
    unknownStep op s = .next (raise (.unknownOpcode op) s) := by
  simp only [unknownStep, h]

/-- What one step of the engine can be. -/
inductive StepCase (s t : State) : Prop where
  | fetchFails (a : Nat) (ha : 256 ≤ a) (hf : fetch s = .error (.outOfBounds a))
      (ht : t = raise (.outOfBounds a) s)
  | runs (op b1 b2 : Byte) (i : Instr) (u : State) (hf : fetch s = .ok (op, b1, b2))
      (hd : decode s.cfg op b1 b2 = .ok i) (he : exec i s = .next u) (ht : t = endStep op s.pc u)
  | skips (op b1 b2 : Byte) (hf : fetch s = .ok (op, b1, b2)) (hd : s.cfg.opcodeOf op = none)
      (hp : s.cfg.unknownOpcode = .noop)
      (ht : t = haltTransition (setPc s (s.pc + operandCount op + 1)))
  | rejects (op b1 b2 : Byte) (hf : fetch s = .ok (op, b1, b2)) (hd : s.cfg.opcodeOf op = none)
      (hp : s.cfg.unknownOpcode = .fault) (ht : t = raise (.unknownOpcode op) s)

/-- The inversion lemma of `step`. -/
theorem step_cases {s t : State} (h : step s = .next t) : s.state = .running ∧ StepCase s t := by
  cases hs : s.state with
  | halted =>
    simp only [step, hs] at h
    cases h
  | faulted =>
    simp only [step, hs] at h
    cases h
  | running =>
    refine ⟨rfl, ?_⟩
    cases hf : fetch s with
    | error e =>
      rw [step_fetch_error hs hf] at h
      obtain ⟨-, a, ha, rfl⟩ := fetch_error hf
      cases h
      exact .fetchFails a ha hf rfl
    | ok f =>
      obtain ⟨op, b1, b2⟩ := f
      cases ho : s.cfg.opcodeOf op with
      | none =>
        rw [step_unknown hs hf ho] at h
        cases hp : s.cfg.unknownOpcode with
        | noop =>
          rw [unknownStep_noop hp] at h
          cases h
          exact .skips op b1 b2 hf ho hp rfl
        | fault =>
          rw [unknownStep_fault hp] at h
          cases h
          exact .rejects op b1 b2 hf ho hp rfl
      | some o =>
        have hd : decode s.cfg op b1 b2 = .ok (assemble o b1 b2) := by simp only [decode, ho]
        obtain ⟨u, hu⟩ := exec_next (assemble o b1 b2) s
        rw [step_instr hs hf hd hu] at h
        cases h
        exact .runs op b1 b2 _ u hf hd hu rfl

end Sys2Proof.Machine
end

