-- ==== Sys2Proof/Machine/Notation.lean ====
section
/-! DEFINITION. How the spec writes instructions as text (30_encoding.md R84): the two mnemonics of an opcode, the
operands, and the instruction that a mnemonic and operand values name. There are no pseudo-instructions and no
directives (R85). -/

namespace Sys2Proof

/-- The short mnemonic (30_encoding.md R80, 45_alu_extension.md R200). -/
def Opcode.shortName : Opcode → String
  | .hlt => "HLT"
  | .push => "PUSH"
  | .pop => "POP"
  | .prn => "PRN"
  | .jmp => "JMP"
  | .jeq => "JEQ"
  | .jne => "JNE"
  | .ldi => "LDI"
  | .mul => "MUL"
  | .cmp => "CMP"
  | .add => "ADD"
  | .sub => "SUB"
  | .and => "AND"
  | .or => "OR"
  | .xor => "XOR"
  | .not => "NOT"
  | .shl => "SHL"
  | .shr => "SHR"

/-- The source's long mnemonic (30_encoding.md R80); the instructions of ALU_EXT have the short one only. -/
def Opcode.longName : Opcode → String
  | .hlt => "HALT"
  | .push => "PUSH"
  | .pop => "POP"
  | .prn => "PRINT_REGISTER"
  | .jmp => "JUMP"
  | .jeq => "JUMP_IF_EQUAL"
  | .jne => "JUMP_IF_NOT_EQUAL"
  | .ldi => "LOAD_IMMEDIATE"
  | .mul => "MULTIPLY"
  | .cmp => "COMPARE"
  | .add => "ADD"
  | .sub => "SUB"
  | .and => "AND"
  | .or => "OR"
  | .xor => "XOR"
  | .not => "NOT"
  | .shl => "SHL"
  | .shr => "SHR"

/-- The opcode a mnemonic names, the long and the short one alike (30_encoding.md R84). -/
def opcodeNamed (name : String) : Option Opcode :=
  (baseOpcodes ++ extOpcodes).find? (fun o => o.shortName == name || o.longName == name)

/-- The instruction a mnemonic and its operand values name; none with a wrong number of operands. -/
def instrNamed (name : String) (operands : List Byte) : Option Instr :=
  match opcodeNamed name with
  | none => none
  | some o =>
    if operands.length = o.operands then some (assemble o (operands.getD 0 0#8) (operands.getD 1 0#8))
    else none

/-- An operand as text: a register as `R` and its number, an immediate in decimal (30_encoding.md R84). -/
def operandText (isRegister : Bool) (b : Byte) : List Char :=
  (if isRegister then ['R'] else []) ++ Nat.toDigits 10 b.toNat

/-- An instruction as text: its short mnemonic, then its operands separated by commas (30_encoding.md R84). -/
def Instr.text (i : Instr) : List Char :=
  i.opcode.shortName.toList ++
    match i.operandBytes with
    | [] => []
    | [r] => ' ' :: operandText true r
    | a :: b :: _ =>
      ' ' :: operandText true a ++ [',', ' '] ++ operandText (i.opcode.format != .f2ri) b

end Sys2Proof
end

