-- ==== Sys2Proof/Tests/Slice0.lean ====
section
/-! SUPPORT. Tests by hand from the spec: ill-formed parameters and instructions, words written out from the
encodings, one step of every instruction (expected results from 95_test_vectors.md), the loader and the output; then
a witness for the hypotheses of every statement. -/

namespace Sys2Proof.Tests

open Sys2Proof.Machine
open Sys2Proof.Claims

/-! ### Small machines -/

/-- The registers of a small machine: `x[0]`, `x[1]` and `x[7]`. -/
def regs (a b p : Nat) : Vector Nat 8 := ((Vector.replicate 8 0 |>.set 0 a) |>.set 1 b) |>.set 7 p

/-- The reset machine with bytes at an address and the pc there. -/
def ready (pc : Nat) (bytes : List Byte) : State :=
  { State.reset with pc := pc, mem := Memory.place [] pc bytes }

/-- The same with registers. -/
def readyWith (bytes : List Byte) (x : Vector Nat 8) : State := { ready 0 bytes with x := x }

/-- The same machine with words of 16 bits. -/
def wide (s : State) : State := { s with cfg := { s.cfg with wordBits := 16 } }

/-- The same machine with the profile ALU_EXT. -/
def extended (s : State) : State := { s with cfg := Config.allRows }

/-- The same machine in strict mode. -/
def strict (s : State) : State := { s with cfg := { s.cfg with unknownOpcode := .fault } }

/-- The state of an outcome. -/
def outcomeState : Result → Option State
  | .next t => some t
  | .fault _ => none
  | .refused _ => none

/-- The state after one step. -/
def stepped (s : State) : Option State := outcomeState (step s)

/-- A register after one step. -/
def reg (s : State) (i : Fin 8) : Option Nat := (stepped s).map fun t => t.x[i.val]

/-- The pc after one step. -/
def nextPc (s : State) : Option Nat := (stepped s).map fun t => t.pc

/-- The fault record after one step. -/
def record (s : State) : Option FaultRecord := (stepped s).bind fun t => t.fault

/-- The flags L, E and G after one step. -/
def flags (s : State) : Option (Bool × Bool × Bool) :=
  (stepped s).map fun t => (flagL t.fl, flagE t.fl, flagG t.fl)

/-! ### WellFormed refuses an ill-formed term for each of its checks -/

theorem test_width_seven_refused : ¬Config.WidthOk { Config.default with wordBits := 7 } := by decide

theorem test_load_addr_256_refused : ¬Config.LoadAddrOk { Config.default with loadAddr := 256 } := by decide

theorem test_two_opcodes_of_one_byte_refused :
    ¬Config.DistinctOk { Config.default with opcodes := { OpcodeMap.default with pop := 0x45#8 } } := by decide

theorem test_wrong_operand_count_refused :
    ¬Config.CountsOk { Config.default with opcodes := { OpcodeMap.default with ldi := 0x42#8 } } := by decide

theorem test_jump_without_bit_4_refused :
    ¬Config.JumpBitOk { Config.default with opcodes := { OpcodeMap.default with jmp := 0x44#8 } } := by decide

theorem test_print_with_bit_4_refused :
    ¬Config.AdvanceBitOk { Config.default with opcodes := { OpcodeMap.default with prn := 0x57#8 } } := by decide

theorem test_add_refused_in_base_profile : ¬(Instr.add 0#8 1#8).WellFormed Config.default := by decide

theorem test_default_parameters_accepted : Config.default.WellFormed ∧ Config.allRows.WellFormed := by decide

theorem test_reset_memory_is_canonical : Memory.wf State.reset.mem := by decide

/-! ### Words written out from the encodings of spec/opcode_table.json -/

theorem test_decode_hlt : decode Config.allRows 0b00000001#8 0#8 0#8 = .ok .hlt := by decide

theorem test_decode_push : decode Config.allRows 0b01000101#8 0b00000110#8 0#8 = .ok (.push 6#8) := by decide

theorem test_decode_pop : decode Config.allRows 0b01000110#8 0b00000111#8 0#8 = .ok (.pop 7#8) := by decide

theorem test_decode_prn : decode Config.allRows 0b01000111#8 0b00000011#8 0#8 = .ok (.prn 3#8) := by decide

theorem test_decode_jmp : decode Config.allRows 0b01010100#8 0b00000010#8 0#8 = .ok (.jmp 2#8) := by decide

theorem test_decode_jeq : decode Config.allRows 0b01010101#8 0b00000001#8 0#8 = .ok (.jeq 1#8) := by decide

theorem test_decode_jne : decode Config.allRows 0b01010110#8 0b00000100#8 0#8 = .ok (.jne 4#8) := by decide

theorem test_decode_ldi :
    decode Config.allRows 0b10000010#8 0b00000101#8 0b11001000#8 = .ok (.ldi 5#8 200#8) := by decide

theorem test_decode_mul :
    decode Config.allRows 0b10100010#8 0b00000010#8 0b00000011#8 = .ok (.mul 2#8 3#8) := by decide

theorem test_decode_cmp :
    decode Config.allRows 0b10100111#8 0b00000000#8 0b00000001#8 = .ok (.cmp 0#8 1#8) := by decide

theorem test_decode_add :
    decode Config.allRows 0b10100000#8 0b00000000#8 0b00000001#8 = .ok (.add 0#8 1#8) := by decide

theorem test_decode_sub :
    decode Config.allRows 0b10100001#8 0b00000100#8 0b00000110#8 = .ok (.sub 4#8 6#8) := by decide

theorem test_decode_and :
    decode Config.allRows 0b10101000#8 0b00000001#8 0b00000010#8 = .ok (.and 1#8 2#8) := by decide

theorem test_decode_or :
    decode Config.allRows 0b10101010#8 0b00000101#8 0b00000011#8 = .ok (.or 5#8 3#8) := by decide

theorem test_decode_xor :
    decode Config.allRows 0b10101011#8 0b00000111#8 0b00000000#8 = .ok (.xor 7#8 0#8) := by decide

theorem test_decode_not : decode Config.allRows 0b01101001#8 0b00000011#8 0#8 = .ok (.not 3#8) := by decide

theorem test_decode_shl :
    decode Config.allRows 0b10101100#8 0b00000010#8 0b00000001#8 = .ok (.shl 2#8 1#8) := by decide

theorem test_decode_shr :
    decode Config.allRows 0b10101101#8 0b00000110#8 0b00000101#8 = .ok (.shr 6#8 5#8) := by decide

/-- 95_test_vectors.md section 2.1: bytes that are unknown in the base profile. -/
theorem test_unknown_bytes_are_refused_by_name :
    [0x00#8, 0x11#8, 0x50#8, 0x69#8, 0xA0#8, 0xC0#8, 0xFF#8].all (fun op =>
      decide (decode Config.default op 0#8 0#8 = .error (.unknownOpcode op))) = true := by decide

theorem test_two_bytes_are_too_few : decodeBytes Config.default [0x45#8, 0x01#8] = .error .tooFewBytes := by
  decide

/-- A table word counts its bits from the first byte's lowest: LDI R5, 200 is the bytes 82 05 C8. -/
theorem test_table_word_ldi : decodeTableWord 24 0xC80582 = some (.ldi 5#8 200#8) := by decide

theorem test_table_word_ignores_bits_above : decodeTableWord 8 0xFF01 = some .hlt := by decide

theorem test_fetch_word_runs_ldi : reg (State.reset.withFetchWord 24 0xC80582) 5 = some 200 := by decide

theorem test_fetch_word_runs_an_extension_row :
    reg (State.reset.withFetchWord 16 0x0369) 3 = some 255 := by decide

/-! ### One step of each instruction (95_test_vectors.md section 2) -/

/-- W5 and R108's example. -/
theorem test_hlt : (stepped (ready 5 [0x01#8])).map (fun t => (t.halt, t.pc, t.state)) =
    some (true, 6, .halted) := by decide

/-- V-ENG-2. -/
theorem test_hlt_at_254_faults : (stepped (ready 254 [0x01#8])).map (fun t => (t.halt, t.fault)) =
    some (false, some { code := 1, pc := 254, opcode := some 0x01#8, detail := .address 256 }) := by decide

/-- V-ENG-4. -/
theorem test_fetch_at_256_has_no_opcode : record (ready 256 []) =
    some { code := 1, pc := 256, opcode := none, detail := .address 256 } := by decide

/-- V-ENG-6. -/
theorem test_unknown_opcode_in_strict_mode : record (strict (ready 0 [])) =
    some { code := 4, pc := 0, opcode := some 0#8, detail := .byte 0#8 } := by decide

/-- V-ENG-7. -/
theorem test_unknown_count_three_moves_by_four :
    stepped (ready 0 [0xC0#8]) = some { ready 0 [0xC0#8] with pc := 4 } := by decide

/-- V-STK-1. -/
theorem test_push_wraps_stack_pointer :
    (stepped (readyWith [0x45#8, 0x00#8] (regs 42 0 0))).map (fun t => (t.x[7], Memory.peek t.mem 255)) =
      some (255, 42#8) := by decide

/-- V-STK-3. -/
theorem test_push_r7_stores_decremented_value :
    (stepped (readyWith [0x45#8, 0x07#8] (regs 0 0 10))).map (fun t => (t.x[7], Memory.peek t.mem 9)) =
      some (9, 9#8) := by decide

/-- V-STK-10. -/
theorem test_pop_at_reset :
    (stepped (ready 0 [0x46#8, 0x02#8])).map (fun t => (t.x[2], t.x[7])) = some (0x46, 1) := by decide

/-- V-STK-8. -/
theorem test_pop_r7_increments_popped_value :
    reg { ready 0 [0x46#8, 0x07#8] with
      x := regs 0 0 10, mem := [(0, 0x46#8), (1, 0x07#8), (10, 50#8)] } 7 = some 51 := by decide

/-- V-PRN-1, with the register R0. -/
theorem test_prn : (stepped (readyWith [0x47#8, 0x00#8] (regs 200 0 0))).map (fun t => (t.out, t.pc)) =
    some ([200], 2) := by decide

/-- V-PRN-3. -/
theorem test_prn_invalid : record (ready 0 [0x47#8, 0x09#8]) =
    some { code := 2, pc := 0, opcode := some 0x47#8, detail := .register 9 } := by decide

/-- V-JMP-1, with the register R1. -/
theorem test_jmp : nextPc { ready 6 [0x54#8, 0x01#8] with x := regs 0 10 0 } = some 10 := by decide

/-- V-JEQ-1, with the register R1. -/
theorem test_jeq_taken :
    nextPc { ready 9 [0x55#8, 0x01#8] with x := regs 0 20 0, fl := 1#8 } = some 20 := by decide

/-- V-JEQ-3. -/
theorem test_jeq_not_taken_does_not_check : nextPc (ready 9 [0x55#8, 0x08#8]) = some 11 := by decide

/-- V-JNE-3: after a comparison that gave L. -/
theorem test_jne_taken_on_less :
    nextPc { ready 15 [0x56#8, 0x01#8] with x := regs 0 12 0, fl := 4#8 } = some 12 := by decide

/-- V-JNE-2. -/
theorem test_jne_not_taken : nextPc { ready 15 [0x56#8, 0x02#8] with fl := 1#8 } = some 17 := by decide

/-- V-LDI-2. -/
theorem test_ldi_stack_pointer : reg (ready 0 [0x82#8, 0x07#8, 0xFF#8]) 7 = some 255 := by decide

/-- V-LDI-4. -/
theorem test_ldi_is_not_sign_extended : reg (wide (ready 0 [0x82#8, 0x03#8, 0xFF#8])) 3 = some 255 := by decide

/-- V-MUL-3. -/
theorem test_mul_wraps : reg (readyWith [0xA2#8, 0x00#8, 0x01#8] (regs 255 255 0)) 0 = some 1 := by decide

/-- V-MUL-8. -/
theorem test_mul_checks_a_first : record (ready 0 [0xA2#8, 0x08#8, 0x09#8]) =
    some { code := 2, pc := 0, opcode := some 0xA2#8, detail := .register 8 } := by decide

/-- V-CMP-4. -/
theorem test_cmp_is_unsigned :
    flags (readyWith [0xA7#8, 0x00#8, 0x01#8] (regs 255 1 0)) = some (false, false, true) := by decide

/-- V-CMP-7. -/
theorem test_cmp_clears_less :
    flags { readyWith [0xA7#8, 0x00#8, 0x01#8] (regs 9 9 0) with fl := 4#8 } =
      some (false, true, false) := by decide

/-- V-EXT-1. -/
theorem test_add : reg (extended (readyWith [0xA0#8, 0x00#8, 0x01#8] (regs 200 100 0))) 0 = some 44 := by decide

/-- V-EXT-11. -/
theorem test_add_unknown_in_base_profile :
    (stepped (readyWith [0xA0#8, 0x00#8, 0x01#8] (regs 200 100 0))).map (fun t => (t.pc, t.x[0])) =
      some (3, 200) := by decide

/-- V-EXT-2. -/
theorem test_sub : reg (extended (readyWith [0xA1#8, 0x00#8, 0x01#8] (regs 5 7 0))) 0 = some 254 := by decide

/-- V-EXT-3. -/
theorem test_and : reg (extended (readyWith [0xA8#8, 0x00#8, 0x01#8] (regs 0x0C 0x0A 0))) 0 = some 0x08 := by
  decide

/-- V-EXT-4. -/
theorem test_or : reg (extended (readyWith [0xAA#8, 0x00#8, 0x01#8] (regs 0x0C 0x0A 0))) 0 = some 0x0E := by
  decide

/-- V-EXT-5. -/
theorem test_xor_with_itself :
    reg (extended (readyWith [0xAB#8, 0x00#8, 0x00#8] (regs 0x5A 0 0))) 0 = some 0 := by decide

/-- V-EXT-6. -/
theorem test_not : reg (extended (ready 0 [0x69#8, 0x03#8])) 3 = some 255 := by decide

/-- V-EXT-7. -/
theorem test_shl : reg (extended (readyWith [0xAC#8, 0x00#8, 0x01#8] (regs 0x81 1 0))) 0 = some 2 := by decide

/-- V-EXT-8. -/
theorem test_shl_by_width : reg (extended (readyWith [0xAC#8, 0x00#8, 0x01#8] (regs 1 8 0))) 0 = some 0 := by
  decide

/-- V-EXT-9. -/
theorem test_shr : reg (extended (readyWith [0xAD#8, 0x00#8, 0x01#8] (regs 0x81 4 0))) 0 = some 8 := by decide

/-- V-EXT-10. -/
theorem test_shr_past_width :
    reg (extended (readyWith [0xAD#8, 0x00#8, 0x01#8] (regs 0xFF 9 0))) 0 = some 0 := by decide

/-! ### The loader and the output (95_test_vectors.md section 2.8) -/

/-- V-LD-1. -/
theorem test_line_with_comment : readLine ['1', '0', '0', '0', '0', '0', '1', '0', ' ', '#', ' ', 'L'] =
    .byte 0x82#8 := by decide

/-- V-LD-2 and V-LD-3. -/
theorem test_lines_without_a_byte : readLine [' ', ' ', ' ', '#', ' ', 'n'] = .skipped ∧ readLine [] = .skipped ∧
    readLine ['1', '0', '0', '0', '0', '0', '1'] = .malformed := by decide

/-- V-LD-4 and V-LD-5. -/
theorem test_lines_of_more_than_a_byte :
    readLine ['1', '0', '0', '0', '0', '0', '1', '0', '1'] = .byte 0x82#8 ∧
    readLine [' ', '0', '0', '0', '0', '0', '0', '0', '1', ' '] = .byte 0x01#8 := by decide

/-- V-LD-6. -/
theorem test_line_with_a_non_digit : readLine ['1', '0', '0', '0', 'x', '0', '1', '0'] = .malformed := by decide

/-- R265, steps 5 and 6: a malformed line under both policies. -/
theorem test_malformed_line : readImage false ['1', 'x', '\n'] = .ok [] ∧
    readImage true ['1', 'x', '\n'] = .error (.malformedProgramLine 0) := by decide

/-- V-LD-8 and V-LD-9. -/
theorem test_load_at_the_end :
    loadProgram [1#8, 2#8, 3#8] 254 State.reset = .error (.outOfBounds 256) ∧
    loadProgram [] 256 State.reset = .ok State.reset := by decide

/-- R84: long and short mnemonics name the same instruction, whose bytes the rule gives. -/
theorem test_mnemonics : instrNamed "LOAD_IMMEDIATE" [0#8, 8#8] = some (.ldi 0#8 8#8) ∧
    instrNamed "MUL" [0#8, 1#8] = instrNamed "MULTIPLY" [0#8, 1#8] ∧ instrNamed "HLT" [1#8] = none ∧
    encode Config.default (.ldi 0#8 8#8) = [0x82#8, 0#8, 8#8] := by decide

/-- R84's way of writing an instruction. -/
theorem test_instruction_text : (Instr.ldi 0#8 8#8).text = ['L', 'D', 'I', ' ', 'R', '0', ',', ' ', '8'] ∧
    (Instr.mul 0#8 1#8).text = ['M', 'U', 'L', ' ', 'R', '0', ',', ' ', 'R', '1'] ∧
    Instr.hlt.text = ['H', 'L', 'T'] := by decide

/-- R123: the renderings the source's examples show. -/
theorem test_rendering : renderOut [8, 90] = ['8', '\n', '9', '0', '\n'] := by decide

/-! ### Witnesses: states and operands that meet the hypotheses of each statement, clause by clause, at the bounds -/

/-- A running machine and a next state of it. -/
def steps (s : State) : Bool := (stepped s).isSome

/-- The engine state after one instruction's handler. -/
def handled (i : Instr) (s : State) : Option EngineState := (outcomeState (exec i s)).map fun t => t.state

theorem witness_ConstructionGivesResetValues : (0 : Nat) < 256 ∧ 255 < 256 ∧ (0 : Nat) < 8 ∧ 7 < 8 := by decide

theorem witness_ConstructedMachineMeetsInvariant : Config.default.WellFormed ∧ Config.allRows.WellFormed ∧
    Config.WellFormed { Config.default with loadAddr := 255, unknownOpcode := .fault } := by decide

theorem witness_EveryStepKeepsInvariant :
    [ready 253 [0x01#8], ready 254 [], strict (ready 0 []), ready 0 [0xC0#8],
      readyWith [0x45#8, 0x00#8] (regs 42 0 0), ready 0 [0x46#8, 0x02#8], ready 0 [0x47#8, 0x00#8],
      readyWith [0xA7#8, 0x00#8, 0x01#8] (regs 255 1 0)].all (fun s => decide s.Inv && steps s) = true := by
  decide

theorem witness_StepsNeverChangeParameters : steps (extended (ready 0 [0x69#8, 0x03#8])) = true := by decide

theorem witness_OpcodeByteFields :
    decode Config.default 0x82#8 0x07#8 0xFF#8 = .ok (.ldi 7#8 255#8) ∧ Config.default.WellFormed ∧
    Opcode.cmp ∈ Config.default.active ∧
    (∀ o ∈ Config.default.active, Config.default.opcodes.byteOf o ≠ 0x00#8) ∧
    (∀ o ∈ Config.default.active, Config.default.opcodes.byteOf o ≠ 0xFF#8) := by decide

theorem witness_InstructionLengthIsCountPlusOne : Config.default.WellFormed ∧
    decode Config.default 0x01#8 0#8 0#8 = .ok .hlt ∧
    decode Config.default 0x47#8 255#8 0#8 = .ok (.prn 255#8) ∧
    decode Config.default 0xA7#8 255#8 255#8 = .ok (.cmp 255#8 255#8) := by decide

theorem witness_DecodeInvertsEncode : Config.default.WellFormed ∧ Instr.hlt.WellFormed Config.default ∧
    (Instr.ldi 255#8 255#8).WellFormed Config.default ∧
    Config.allRows.WellFormed ∧ (Instr.shr 255#8 0#8).WellFormed Config.allRows := by decide

theorem witness_PlacedInstructionRuns :
    (ready 253 []).cfg.WellFormed ∧ Memory.wf (ready 253 []).mem ∧
    (Instr.cmp 0#8 255#8).WellFormed (ready 253 []).cfg ∧ (ready 253 []).state = .running ∧
    (ready 253 []).pc + 2 < 256 := by decide

theorem witness_ProfileGatesExtension :
    Config.default.aluExt = false ∧ decode Config.default 0xA2#8 0#8 1#8 = .ok (.mul 0#8 1#8) ∧
    Config.allRows.WellFormed ∧ Config.allRows.aluExt = true ∧
    (Instr.not 255#8).opcode ∈ extOpcodes := by decide

theorem witness_CountThreeBytesAreUnknown :
    (ready 0 [0xC0#8]).cfg.WellFormed ∧ operandCount 0xC0#8 = 3 ∧ operandCount 0xFF#8 = 3 ∧
    Fetches (ready 0 [0xC0#8]) 0xC0#8 0#8 0#8 ∧ Fetches (ready 253 [0xFF#8]) 0xFF#8 0#8 0#8 ∧
    (ready 0 [0xC0#8]).cfg.unknownOpcode = .noop := by decide

theorem witness_UnusedOperandBytesHaveNoEffect : Config.default.WellFormed ∧
    decode Config.default 0x47#8 3#8 9#8 = .ok (.prn 3#8) ∧ operandCount 0x47#8 ≤ 1 ∧
    decode Config.default 0x01#8 8#8 9#8 = .ok .hlt ∧ operandCount 0x01#8 = 0 ∧
    Fetches (ready 253 [0x01#8, 8#8, 9#8]) 0x01#8 8#8 9#8 ∧
    (ready 254 [0x01#8]).state = .running ∧ 254 ≤ (ready 254 [0x01#8]).pc ∧
    (ready 256 []).state = .running ∧ 254 ≤ (ready 256 []).pc := by decide

theorem witness_StepRunsDecodedInstruction :
    Fetches (ready 253 [0x01#8]) 0x01#8 0#8 0#8 ∧ decode (ready 253 [0x01#8]).cfg 0x01#8 0#8 0#8 = .ok .hlt ∧
    Fetches (ready 0 [0x47#8, 8#8]) 0x47#8 8#8 0#8 ∧
    decode (ready 0 [0x47#8, 8#8]).cfg 0x47#8 8#8 0#8 = .ok (.prn 8#8) := by decide

theorem witness_FetchReadsThreeBytesInOrder :
    256 ≤ (ready 256 []).pc ∧ ((ready 255 []).pc < 256 ∧ 256 ≤ (ready 255 []).pc + 1) ∧
    ((ready 254 []).pc + 1 < 256 ∧ 256 ≤ (ready 254 []).pc + 2) ∧ (ready 253 []).pc + 2 < 256 ∧
    (ready 254 []).state = .running ∧ fetch (ready 254 []) = .error (.outOfBounds 256) := by decide

theorem witness_EngineAdvancesUnlessOpcodeSetsPc :
    (Fetches (ready 0 [0x82#8, 7#8, 1#8]) 0x82#8 7#8 1#8 ∧
      decode (ready 0 [0x82#8, 7#8, 1#8]).cfg 0x82#8 7#8 1#8 = .ok (.ldi 7#8 1#8) ∧
      handled (.ldi 7#8 1#8) (ready 0 [0x82#8, 7#8, 1#8]) = some .running ∧ setsPc 0x82#8 = false) ∧
    (Fetches (ready 0 [0x54#8, 7#8]) 0x54#8 7#8 0#8 ∧
      decode (ready 0 [0x54#8, 7#8]).cfg 0x54#8 7#8 0#8 = .ok (.jmp 7#8) ∧
      handled (.jmp 7#8) (ready 0 [0x54#8, 7#8]) = some .running ∧ setsPc 0x54#8 = true) ∧
    (handled (.jeq 8#8) (ready 0 []) = some .running ∧ (ready 0 []).state ≠ .faulted) := by decide

theorem witness_UnknownOpcodeFollowsPolicy :
    Fetches (ready 0 [0x11#8]) 0x11#8 0#8 0#8 ∧ Fetches (strict (ready 253 [0xFF#8])) 0xFF#8 0#8 0#8 ∧
    decode (ready 0 [0x11#8]).cfg 0x11#8 0#8 0#8 = .error (.unknownOpcode 0x11#8) ∧
    decode (strict (ready 253 [0xFF#8])).cfg 0xFF#8 0#8 0#8 = .error (.unknownOpcode 0xFF#8) ∧
    (ready 0 [0x11#8]).cfg.unknownOpcode = .noop ∧
    (strict (ready 253 [0xFF#8])).cfg.unknownOpcode = .fault := by decide

theorem witness_HaltEndsTheRun : (ready 253 [0x01#8]).halt = false ∧
    (stepped (ready 253 [0x01#8])).map (fun t => t.halt) = some true ∧ (ready 253 [0x01#8]).cfg.WellFormed ∧
    Fetches (ready 253 [0x01#8]) (ready 253 [0x01#8]).cfg.opcodes.hlt 0#8 0#8 := by decide

theorem witness_StoppedEngineHasNoStep :
    (stepped (ready 253 [0x01#8])).map (fun t => t.state) = some .halted ∧
    (stepped (ready 254 [0x01#8])).map (fun t => t.state) = some .faulted := by decide

theorem witness_RunningEngineAlwaysSteps : State.reset.state = .running ∧ (ready 256 []).state = .running := by
  decide

theorem witness_RunUnderFuelReportsTheEngineState :
    runFuel 1 (ready 0 [0x01#8]) = .halted { ready 0 [0x01#8] with halt := true, state := .halted, pc := 1 } ∧
    runFuel 1 (ready 256 []) = .faulted (raise (.outOfBounds 256) (ready 256 [])) ∧
    runFuel 0 State.reset = .notEnded State.reset := by decide

theorem witness_ZeroMemoryRunFaultsAtTheEnd : (0 : Nat) ≤ 254 ∧ (254 : Nat) ≤ 254 := by decide

theorem witness_FaultingStepOnlyRecordsTheFault :
    [ready 254 [], ready 256 [], ready 0 [0x82#8, 8#8], strict (ready 0 [])].all (fun s =>
      decide ((stepped s).map (fun t => t.state) = some .faulted)) = true ∧
    (ready 254 []).pc < 256 ∧ 256 ≤ (ready 256 []).pc := by decide

theorem witness_OutOfBoundsCauses :
    ((ready 254 []).state = .running ∧ 254 ≤ (ready 254 []).pc) ∧
    (256 ≤ pushAddress (wide (readyWith [] (regs 0 0 257))) ∧ (7#8 : Byte).toNat < 8) ∧
    256 ≤ (wide (readyWith [] (regs 0 0 256))).x[7] ∧
    ((readyWith [] (regs 0 0 255)).RegsOk ∧ (readyWith [] (regs 0 0 255)).cfg.wordBits = 8) ∧
    outcomeState (exec (.push 0#8) (wide (readyWith [] (regs 0 0 0)))) =
      some (raise (.outOfBounds 65535) (wide (readyWith [] (regs 0 0 0)))) ∧
    outcomeState (exec (.pop 0#8) (wide (readyWith [] (regs 0 0 256)))) =
      some (raise (.outOfBounds 256) (wide (readyWith [] (regs 0 0 256)))) ∧
    256 < 254 + [1#8, 2#8, 3#8].length := by decide

theorem witness_InvalidRegisterCauses :
    ((checked 0#8 (.mul 7#8 8#8)).find? (fun j => decide (8 ≤ j)) = some 8) ∧
    ((checked 1#8 (.jeq 255#8)).find? (fun j => decide (8 ≤ j)) = some 255) ∧
    ((checked 0#8 (.pop 8#8)).find? (fun j => decide (8 ≤ j)) = some 8 ∧
      (readyWith [] (regs 0 0 255)).x[7] < 256) ∧
    (State.reset.state = .running ∧ outcomeState (exec (.mul 7#8 8#8) State.reset) =
      some (raise (.invalidRegister 8) State.reset)) ∧
    (Fetches (ready 0 [0x00#8, 8#8]) 0x00#8 8#8 0#8 ∧
      decode (ready 0 [0x00#8, 8#8]).cfg 0x00#8 8#8 0#8 = .error (.unknownOpcode 0x00#8)) := by decide

theorem witness_UnsupportedOperationIsUnreachable : Config.allRows.aluExt = true ∧
    AluOp.sub ≠ .add ∧ AluOp.sub ≠ .mul ∧ Config.default.aluExt = false := by decide

theorem witness_MemoryReadAfterWrite : (255 : Nat) < 256 ∧ (256 : Nat) ≤ 256 ∧
    Memory.wf (ready 255 [0x01#8]).mem ∧ (254 : Nat) ≠ 255 := by decide

theorem witness_RegisterIndexIsCheckedWhole :
    8 ≤ (8#8 : Byte).toNat ∧ 8 ≤ (255#8 : Byte).toNat ∧ (7#8 : Byte).toNat < 8 := by decide

theorem witness_RegisterWriteReducesModulo :
    writeReg State.reset 7#8 256 = .ok State.reset ∧ writeReg State.reset 0#8 255 =
      .ok { State.reset with x := regs 255 0 0 } ∧ (1#8 : Byte) ≠ 0#8 ∧ State.reset.x[7] = 0 ∧
    (readyWith [] (regs 0 0 255)).x[7] = 2 ^ (readyWith [] (regs 0 0 255)).cfg.wordBits - 1 := by decide

theorem witness_RegisterWritesFollowTheTable :
    handled (.pop 6#8) State.reset = some .running ∧ (0 ∉ writes (.pop 6#8)) ∧ (5 ∉ writes (.pop 6#8)) ∧
    handled (.prn 0#8) State.reset = some .running ∧ (7 ∉ writes (.prn 0#8)) := by decide

theorem witness_UnreadRegistersDoNotMatter :
    (6 ∉ reads 0#8 (.push 5#8) ∧ 6 ∉ writes (.push 5#8) ∧ handled (.push 5#8) State.reset = some .running) ∧
    (0 ∉ reads 0#8 (.jeq 0#8) ∧ 0 ∉ writes (.jeq 0#8) ∧ handled (.jeq 0#8) State.reset = some .running) ∧
    (7#8 : Byte).toNat < 8 := by decide

theorem witness_OnlyCompareWritesFlags :
    (handled (.ldi 0#8 1#8) State.reset = some .running ∧ ∀ a b, Instr.ldi 0#8 1#8 ≠ .cmp a b) ∧
    (stepped (ready 0 [0xA7#8, 0#8, 7#8])).map (fun t => decide (t.fl ≠ (ready 0 []).fl)) = some true ∧
    (0#8 : Byte).toNat < 8 ∧ (7#8 : Byte).toNat < 8 ∧
    (flagE 4#8 = flagE State.reset.fl ∧ handled (.jeq 8#8) State.reset = some .running) :=
  ⟨⟨by decide, fun _ _ h => nomatch h⟩, by decide, by decide, by decide, by decide⟩

theorem witness_OnlyPushWritesMemory : Memory.wf (readyWith [0x45#8, 0x00#8] (regs 42 0 0)).mem ∧
    (stepped (readyWith [0x45#8, 0x00#8] (regs 42 0 0))).map (fun t =>
      decide (memRead t 255 ≠ memRead (readyWith [0x45#8, 0x00#8] (regs 42 0 0)) 255)) = some true := by decide

theorem witness_OnlyPrintAppendsToOutput :
    (stepped (ready 0 [0x47#8, 7#8])).map (fun t => decide (t.out ≠ (ready 0 []).out)) = some true := by decide

/-- The machine that a HLT at address 0 leaves. -/
def haltedAtOne : State := { ready 0 [0x01#8] with halt := true, state := .halted, pc := 1 }

theorem witness_OnlyHaltSetsTheHaltFlag :
    ((stepped (ready 0 [0x01#8])).map (fun t => t.halt) = some true ∧ (ready 0 [0x01#8]).halt = false) ∧
    (handled (.prn 0#8) haltedAtOne = some .halted ∧ haltedAtOne.halt = true) ∧ haltedAtOne.Inv := by decide

theorem witness_ProgramCounterSources :
    [ready 254 [], ready 0 [0xC0#8], readyWith [0x54#8, 7#8] (regs 0 0 200)].all (fun s =>
      decide s.cfg.WellFormed && steps s) = true := by decide

theorem witness_NextFetchSeesThePushedByte :
    [3, 4, 5].all (fun p =>
      let s := readyWith [0x45#8, 0x00#8, 0x47#8] (regs 1 0 p)
      decide (s.cfg.WellFormed ∧ Memory.wf s.mem ∧ Fetches s s.cfg.opcodes.push 0#8 0x47#8 ∧
        pushAddress s < 256 ∧ s.pc + 4 < 256)) = true ∧ (0#8 : Byte).toNat < 8 ∧
    Fetches (ready 251 [0x45#8]) (ready 251 []).cfg.opcodes.push 0#8 0#8 ∧ (ready 251 []).pc + 4 < 256 ∧
    Fetches (ready 253 [0x45#8]) (ready 253 []).cfg.opcodes.push 0#8 0#8 ∧
    Memory.wf (ready 253 [0x45#8]).mem ∧ pushAddress (ready 253 [0x45#8]) < 256 ∧
    256 ≤ (ready 253 []).pc + 4 := by decide

/-- A PUSH over the second operand byte of the next instruction (R65). -/
theorem test_next_fetch_sees_a_pushed_operand :
    (stepped (readyWith [0x45#8, 0x00#8, 0x82#8, 0x00#8, 0x08#8] (regs 9 0 5))).map (fun t => fetch t) =
      some (.ok (0x82#8, 0x00#8, 9#8)) := by decide

theorem witness_HaltInstruction : (ready 253 [0x01#8]).cfg.WellFormed ∧
    Fetches (ready 253 [0x01#8]) (ready 253 [0x01#8]).cfg.opcodes.hlt 0#8 0#8 ∧
    (ready 254 [0x01#8]).state = .running ∧ (ready 254 [0x01#8]).pc = 254 ∧
    (ready 255 [0x01#8]).state = .running ∧ (ready 255 [0x01#8]).pc = 255 := by decide

theorem witness_LoadImmediateInstruction : 8 ≤ State.reset.cfg.wordBits ∧ (7#8 : Byte).toNat < 8 ∧
    8 ≤ (8#8 : Byte).toNat ∧ (ready 253 [0x82#8, 7#8, 255#8]).cfg.WellFormed ∧
    Fetches (ready 253 [0x82#8, 7#8, 255#8]) (ready 253 []).cfg.opcodes.ldi 7#8 255#8 ∧
    Fetches (ready 0 [0x82#8, 8#8, 1#8]) (ready 0 []).cfg.opcodes.ldi 8#8 1#8 := by decide

theorem witness_PrintRegisterInstruction : (7#8 : Byte).toNat < 8 ∧ 8 ≤ (8#8 : Byte).toNat ∧
    (ready 0 [0x47#8, 7#8]).cfg.WellFormed ∧
    Fetches (ready 0 [0x47#8, 7#8]) (ready 0 []).cfg.opcodes.prn 7#8 0#8 ∧
    Fetches (ready 0 [0x47#8, 8#8]) (ready 0 []).cfg.opcodes.prn 8#8 0#8 := by decide

theorem witness_MultiplyInstruction : (7#8 : Byte).toNat < 8 ∧ 8 ≤ (8#8 : Byte).toNat ∧
    (ready 0 [0xA2#8, 7#8, 7#8]).cfg.WellFormed ∧
    Fetches (ready 0 [0xA2#8, 7#8, 7#8]) (ready 0 []).cfg.opcodes.mul 7#8 7#8 ∧
    Fetches (ready 0 [0xA2#8, 8#8, 8#8]) (ready 0 []).cfg.opcodes.mul 8#8 8#8 ∧
    Fetches (ready 0 [0xA2#8, 7#8, 8#8]) (ready 0 []).cfg.opcodes.mul 7#8 8#8 := by decide

theorem witness_PushInstruction : Memory.wf (ready 0 [0x45#8, 7#8]).mem ∧ (7#8 : Byte).toNat < 8 ∧
    pushAddress (ready 0 [0x45#8, 7#8]) = 255 ∧ pushAddress (readyWith [0x45#8, 7#8] (regs 0 0 1)) = 0 ∧
    (ready 0 [0x45#8, 7#8]).cfg.WellFormed ∧
    Fetches (ready 0 [0x45#8, 7#8]) (ready 0 []).cfg.opcodes.push 7#8 0#8 ∧ 8 ≤ (8#8 : Byte).toNat ∧
    256 ≤ pushAddress (wide (readyWith [] (regs 0 0 257))) := by decide

theorem witness_PopInstruction : 8 ≤ (ready 0 []).cfg.wordBits ∧ (7#8 : Byte).toNat < 8 ∧
    memRead (readyWith [0x46#8, 7#8] (regs 0 0 255)) 255 = .ok 0#8 ∧
    (readyWith [0x46#8, 7#8] (regs 0 0 255)).cfg.WellFormed ∧
    Fetches (readyWith [0x46#8, 7#8] (regs 0 0 255)) (ready 0 []).cfg.opcodes.pop 7#8 0#8 ∧
    256 ≤ (wide (readyWith [] (regs 0 0 256))).x[7] ∧
    ((readyWith [] (regs 0 0 255)).x[7] < 256 ∧ 8 ≤ (8#8 : Byte).toNat) := by decide

theorem witness_PushPopRoundTrip :
    ((7#8 : Byte).toNat < 8 ∧ Memory.wf State.reset.mem ∧ State.reset.RegsOk ∧
      8 ≤ State.reset.cfg.wordBits ∧ State.reset.cfg.wordBits = 8) ∧
    (let s := wide (readyWith [] (regs 255 0 256))
     (0#8 : Byte).toNat < 8 ∧ Memory.wf s.mem ∧ s.RegsOk ∧ 8 ≤ s.cfg.wordBits ∧
      1 ≤ s.x[7] ∧ s.x[7] ≤ 256 ∧ s.x[0] < 256) ∧
    (let s := wide (readyWith [] (regs 0 0 256))
     (7#8 : Byte).toNat < 8 ∧ Memory.wf s.mem ∧ s.RegsOk ∧ 8 ≤ s.cfg.wordBits ∧
      1 ≤ s.x[7] ∧ s.x[7] ≤ 256 ∧ (7#8 : Byte).toNat = 7) := by decide

theorem witness_CompareInstruction : (7#8 : Byte).toNat < 8 ∧ 8 ≤ (8#8 : Byte).toNat ∧
    (ready 0 [0xA7#8, 0#8, 7#8]).cfg.WellFormed ∧
    Fetches (ready 0 [0xA7#8, 0#8, 7#8]) (ready 0 []).cfg.opcodes.cmp 0#8 7#8 := by decide

theorem witness_JumpInstruction : (7#8 : Byte).toNat < 8 ∧ 8 ≤ (8#8 : Byte).toNat ∧
    (ready 0 [0x54#8, 7#8]).cfg.WellFormed ∧
    Fetches (ready 0 [0x54#8, 7#8]) (ready 0 []).cfg.opcodes.jmp 7#8 0#8 ∧
    Fetches (ready 0 [0x54#8, 8#8]) (ready 0 []).cfg.opcodes.jmp 8#8 0#8 := by decide

theorem witness_JumpIfEqualInstruction :
    (7#8 : Byte).toNat < 8 ∧ 8 ≤ (8#8 : Byte).toNat ∧ flagE 1#8 = true ∧ flagE State.reset.fl = false ∧
    (ready 0 [0x55#8, 8#8]).cfg.WellFormed ∧
    Fetches (ready 0 [0x55#8, 8#8]) (ready 0 []).cfg.opcodes.jeq 8#8 0#8 ∧
    handled (.jeq 8#8) (ready 0 [0x55#8, 8#8]) = some .running := by decide

theorem witness_JumpIfNotEqualInstruction :
    (7#8 : Byte).toNat < 8 ∧ 8 ≤ (8#8 : Byte).toNat ∧ flagE 1#8 = true ∧ flagE State.reset.fl = false ∧
    (ready 0 [0x56#8, 7#8]).cfg.WellFormed ∧
    Fetches (ready 0 [0x56#8, 7#8]) (ready 0 []).cfg.opcodes.jne 7#8 0#8 ∧
    handled (.jne 7#8) (ready 0 [0x56#8, 7#8]) = some .running := by decide

theorem witness_AddSubInstructions :
    (0#8 : Byte).toNat < 8 ∧ (7#8 : Byte).toNat < 8 ∧ (extended State.reset).cfg.aluExt = true := by decide

theorem witness_LogicInstructions : (0#8 : Byte).toNat < 8 ∧ (7#8 : Byte).toNat < 8 ∧
    (extended (readyWith [] (regs 255 0 170))).cfg.aluExt = true ∧
    (extended (readyWith [] (regs 255 0 170))).RegsOk := by decide

theorem witness_ShiftInstructions : (0#8 : Byte).toNat < 8 ∧ (1#8 : Byte).toNat < 8 ∧
    (extended (readyWith [] (regs 255 8 0))).cfg.aluExt = true ∧
    (extended (readyWith [] (regs 255 8 0))).RegsOk ∧
    (extended (readyWith [] (regs 255 8 0))).cfg.wordBits ≤ (extended (readyWith [] (regs 255 8 0))).x[1] := by
  decide

theorem witness_ExtensionFaultsAndAdvance :
    (Instr.shr 7#8 8#8 ∈ [Instr.add 7#8 8#8, .sub 7#8 8#8, .and 7#8 8#8, .or 7#8 8#8, .xor 7#8 8#8, .shl 7#8 8#8,
      .shr 7#8 8#8] ∧ (7#8 : Byte).toNat < 8 ∧ 8 ≤ (8#8 : Byte).toNat) ∧
    (let s := extended (ready 0 [0x69#8, 7#8])
     s.cfg.WellFormed ∧ (Instr.not 7#8).opcode ∈ extOpcodes ∧
      Fetches s (s.cfg.opcodes.byteOf (Instr.not 7#8).opcode) 7#8 0#8 ∧
      decode s.cfg (s.cfg.opcodes.byteOf (Instr.not 7#8).opcode) 7#8 0#8 = .ok (.not 7#8) ∧
      handled (.not 7#8) s = some .running) := by decide

theorem witness_LoadProgramPlacesTheBytes : Memory.wf State.reset.mem ∧ 254 + [1#8, 2#8].length ≤ 256 ∧
    1 < [1#8, 2#8].length ∧ (253 < 254 ∨ 254 + [1#8, 2#8].length ≤ 253) ∧
    256 < 254 + [1#8, 2#8, 3#8].length := by decide

theorem witness_ProgramImageLines : [' ', '\t'].all isBlankChar = true ∧ ([] : List Char).all isBlankChar = true ∧
    isBlankChar 'x' = false ∧ 'x' ≠ '#' ∧ isBinaryDigit 'x' = false ∧
    ['1'].all isBinaryDigit = true ∧ 1 ≤ ['1'].length ∧
    ['1', '0', '0', '0', '0', '0', '1'].all isBinaryDigit = true ∧
    ['1', '0', '0', '0', '0', '0', '1'].length ≤ 7 ∧ ([] : List Char).head?.any isBinaryDigit = false ∧
    ['x', '0'].head?.any isBinaryDigit = false := by decide

theorem witness_ProgramImageIsReadInOrder :
    ([[], ['1', 'x'], ['#']] : List (List Char)) ≠ [] ∧
    (∀ l ∈ ([[], ['1', 'x'], ['#']] : List (List Char)), '\n' ∉ l) ∧
    (∀ l ∈ ([[], ['#']] : List (List Char)), readLine l ≠ .malformed) ∧
    ([[], ['1', 'x'], ['#']] : List (List Char)) = [[]] ++ ['1', 'x'] :: [['#']] ∧
    (∀ l ∈ ([[]] : List (List Char)), readLine l ≠ .malformed) ∧ readLine ['1', 'x'] = .malformed := by decide

end Sys2Proof.Tests
end

/-! ## Registers and the halt flag (10_state.md R24, R33) -/

namespace Sys2Proof.Machine

/-! ### The halt flag through the parts of a step -/

@[simp] theorem haltTransition_halt (s : State) : (haltTransition s).halt = s.halt := by
  rw [haltTransition_eq]

@[simp] theorem endStep_halt (op : Byte) (pc : Nat) (t : State) : (endStep op pc t).halt = t.halt := by
  obtain ⟨p, e, h⟩ := endStep_eq op pc t
  rw [h]

/-- The handler of HLT answers the state with the halt flag set (40_engine.md R108). -/
theorem exec_hlt (s : State) : exec .hlt s = .next (setHalt s) := rfl

/-- No handler clears the halt flag. -/
theorem exec_keeps_halt {i : Instr} {s t : State} (h : exec i s = .next t) (hs : s.halt = true) :
    t.halt = true := by
  obtain hkept | rfl := exec_halt h
  · exact hkept.trans hs
  · rw [exec_hlt] at h
    cases h
    exact setHalt_halt s

/-- A step leaves the halt flag as it was, unless it decoded HLT: errors and unknown opcodes do not touch the
flag, and of the handlers only that of HLT does. -/
theorem step_halt {s t : State} (h : step s = .next t) :
    t.halt = s.halt ∨ ∃ op b1 b2, fetch s = .ok (op, b1, b2) ∧ decode s.cfg op b1 b2 = .ok .hlt := by
  cases (step_cases h).2 with
  | fetchFails a _ _ ht => exact .inl (by rw [ht, raise_halt])
  | skips op _ _ _ _ _ ht => exact .inl (by rw [ht, haltTransition_halt, setPc_halt])
  | rejects op _ _ _ _ _ ht => exact .inl (by rw [ht, raise_halt])
  | runs op b1 b2 i u hf hd he ht =>
    obtain hkept | rfl := exec_halt he
    · exact .inl (by rw [ht, endStep_halt, hkept])
    · exact .inr ⟨op, b1, b2, hf, hd⟩

/-- Once the halt flag is set the engine is HALTED, and there it has no step (40_engine.md R100). -/
theorem no_step_of_halt {s : State} (hok : s.HaltOk) (hs : s.halt = true) (t : State) :
    step s ≠ .next t := by
  intro h
  have hrunning : s.state = .running := (step_cases h).1
  rw [hok.mp hs] at hrunning
  cases hrunning

/-! ### The obligations -/

/-- Settles O36, from what a handler and a step do to the halt flag (`exec_keeps_halt`, `step_halt`). -/
theorem onlyHaltSetsTheHaltFlag : Obligations.OnlyHaltSetsTheHaltFlag := by
  refine ⟨construct_halt, fun s t h hs ht => ?_, fun i s t => exec_keeps_halt, fun s t hinv hs => ?_⟩
  · refine (step_halt h).resolve_left fun hkept => ?_
    rw [hkept, hs] at ht
    cases ht
  · obtain ⟨-, -, -, -, -, hok, -, -⟩ := hinv
    exact no_step_of_halt hok hs t

/-- Settles O29, from the four cases of a register access. -/
theorem registerIndexIsCheckedWhole : Obligations.RegisterIndexIsCheckedWhole :=
  fun _ _ v => ⟨fun h => ⟨readReg_of_ge h, writeReg_of_ge h v⟩,
    fun h => ⟨readReg_of_lt h, _, writeReg_of_lt h v⟩⟩

end Sys2Proof.Machine

/-! ## Memory accesses (20_memory.md R51, R52) -/

namespace Sys2Proof.Machine

/-- The byte a write stores is its value mod 256 (20_memory.md R52). -/
@[simp] theorem truncByte_toNat (v : Nat) : (truncByte v).toNat = v % 256 :=
  BitVec.toNat_ofNat v 8

/-- What a checked read gives after a checked write: the stored byte at the written address, and
elsewhere what it gave before, the error outside memory included. -/
theorem memRead_memWrite {s t : State} {a v : Nat} (hm : Memory.wf s.mem)
    (h : memWrite s a v = .ok t) (b : Nat) :
    memRead t b = if b = a then .ok (truncByte v) else memRead s b := by
  by_cases ha : a < 256
  case neg =>
    rw [memWrite_of_ge (by omega)] at h
    cases h
  case pos =>
    rw [memWrite_of_lt ha] at h
    cases h
    by_cases hb : b < 256
    · rw [memRead_of_lt hb, memRead_of_lt hb, peek_poke hm]
      split <;> rfl
    · rw [memRead_of_ge (by omega), memRead_of_ge (by omega), if_neg (by omega)]

/-- Settles O28, from the four cases of a memory access and what a read gives after a write
(`memRead_memWrite`). -/
theorem memoryReadAfterWrite : Obligations.MemoryReadAfterWrite := by
  refine fun s a v => ⟨memRead_of_lt, fun ha => ⟨memRead_of_ge ha, memWrite_of_ge ha v⟩,
    fun ha hm => ?_⟩
  have hw := memWrite_of_lt (s := s) ha v
  have hread := memRead_memWrite hm hw
  exact ⟨_, hw, rfl, memWrite_wf hm hw, ⟨_, truncByte_toNat v, by rw [hread, if_pos rfl]⟩,
    fun b hb => by rw [hread, if_neg hb]⟩

end Sys2Proof.Machine

/-! ## The opcode byte and the operand bytes (30_encoding.md R70, R71, R73, R77) -/

namespace Sys2Proof

/-! ### The operand count -/

/-- The two-bit field `op[7:6]` is the byte shifted right by six (30_encoding.md R71). -/
theorem operandCount_eq_shiftRight (op : Byte) : operandCount op = op.toNat >>> 6 := by
  have hlt : op.toNat >>> 6 < 2 ^ 2 := by
    rw [Nat.shiftRight_eq_div_pow]
    omega
  rw [operandCount, BitVec.extractLsb'_toNat, Nat.mod_eq_of_lt hlt]

theorem operandCount_le_three (op : Byte) : operandCount op ≤ 3 :=
  Nat.le_of_lt_succ (op.extractLsb' 6 2).isLt

/-- The count in a decoded opcode byte is the number of operands of the instruction's opcode. -/
theorem operandCount_of_decode {cfg : Config} (hc : cfg.CountsOk) {op b1 b2 : Byte} {i : Instr}
    (h : decode cfg op b1 b2 = .ok i) : operandCount op = i.opcode.operands := by
  obtain ⟨hmem, hop⟩ := decode_opcode h
  rw [← hop, operandCount_byteOf hc hmem]

/-- A defined opcode has operand count 0 to 2 (30_encoding.md R71). -/
theorem operandCount_le_two_of_decode {cfg : Config} (hc : cfg.CountsOk) {op b1 b2 : Byte} {i : Instr}
    (h : decode cfg op b1 b2 = .ok i) : operandCount op ≤ 2 :=
  operandCount_of_decode hc h ▸ operands_le_two i.opcode

/-! ### Selection by the whole byte -/

theorem decode_of_some {cfg : Config} {op : Byte} {o : Opcode} (h : cfg.opcodeOf op = some o)
    (b1 b2 : Byte) : decode cfg op b1 b2 = .ok (assemble o b1 b2) := by
  simp only [decode, h]

/-- A byte that no active opcode has is looked up as none. -/
theorem opcodeOf_eq_none {cfg : Config} {op : Byte} (h : ∀ o ∈ cfg.active, cfg.opcodes.byteOf o ≠ op) :
    cfg.opcodeOf op = none :=
  List.find?_eq_none.2 fun o ho => by simpa using h o ho

/-! ### What the operand bytes decide -/

/-- The operand bytes of a decoded instruction are the first `operand_count` of the two fetched after the
opcode (30_encoding.md R70). -/
theorem operandBytes_of_decode {cfg : Config} (hc : cfg.CountsOk) {op b1 b2 : Byte} {i : Instr}
    (h : decode cfg op b1 b2 = .ok i) : i.operandBytes = [b1, b2].take (operandCount op) := by
  rw [operandCount_of_decode hc h]
  obtain ⟨o, -, rfl⟩ := decode_ok h
  rw [operandBytes_assemble, opcode_assemble]

/-- The encoding of a decoded instruction is the fetched bytes up to its decoded size. -/
theorem encode_of_decode {cfg : Config} (hc : cfg.CountsOk) {op b1 b2 : Byte} {i : Instr}
    (h : decode cfg op b1 b2 = .ok i) : encode cfg i = [op, b1, b2].take (operandCount op + 1) := by
  rw [encode, (decode_opcode h).2, operandBytes_of_decode hc h, List.take_succ_cons]

/-- An instruction is determined by its opcode and its operand bytes. -/
theorem instr_eq_of_operandBytes {i j : Instr} (ho : i.opcode = j.opcode)
    (hb : i.operandBytes = j.operandBytes) : i = j := by
  obtain ⟨b1, b2, tl, hi, hasmi⟩ := assemble_operandBytes i 0#8 0#8 []
  obtain ⟨c1, c2, tl', hj, hasmj⟩ := assemble_operandBytes j 0#8 0#8 []
  rw [hb, hj] at hi
  cases hi
  rw [← hasmi, ho, hasmj]

/-- Decoding depends on the operand bytes only as far as the operand count reaches (30_encoding.md R77). -/
theorem decode_of_take_eq {cfg : Config} (hc : cfg.CountsOk) {op b1 b2 c1 c2 : Byte} {i : Instr}
    (h : decode cfg op b1 b2 = .ok i)
    (htake : [c1, c2].take (operandCount op) = [b1, b2].take (operandCount op)) :
    decode cfg op c1 c2 = .ok i := by
  obtain ⟨o, ho, rfl⟩ := decode_ok h
  have hdec := decode_of_some ho c1 c2
  have hbytes : (assemble o c1 c2).operandBytes = (assemble o b1 b2).operandBytes := by
    rw [operandBytes_of_decode hc hdec, htake, operandBytes_of_decode hc h]
  rw [hdec, instr_eq_of_operandBytes (by simp) hbytes]

end Sys2Proof

namespace Sys2Proof.Machine

/-- A step of a running engine that decodes an instruction is the end of the step over its handler. -/
theorem step_decoded {s : State} {op b1 b2 : Byte} {i : Instr} (hs : s.state = .running)
    (hf : fetch s = .ok (op, b1, b2)) (hd : decode s.cfg op b1 b2 = .ok i) :
    step s = finish op s.pc (exec i s) := by
  obtain ⟨t, ht⟩ := exec_next i s
  rw [step_instr hs hf hd ht, ht, finish]

/-! ### The obligations -/

/-- Settles O5, from the count of a byte and the decoder's lookup of a byte. -/
theorem opcodeByteFields : Obligations.OpcodeByteFields := by
  refine ⟨fun op => ⟨operandCount_eq_shiftRight op, operandCount_le_three op⟩,
    fun cfg op b1 b2 i h => ⟨(decode_opcode h).2, fun hw => ?_⟩, fun cfg o b1 b2 hw ho => ?_,
    fun cfg op b1 b2 h => decode_of_none (opcodeOf_eq_none h)⟩
  · obtain ⟨-, -, -, hcnt, -, -⟩ := hw
    exact operandCount_le_two_of_decode hcnt h
  · obtain ⟨-, -, hdis, -, -, -⟩ := hw
    exact ⟨_, decode_byteOf hdis ho b1 b2, opcode_assemble o b1 b2⟩

/-- Settles O6: the encoding is a prefix of the fetched bytes (`encode_of_decode`), of a count of at most 2. -/
theorem instructionLengthIsCountPlusOne : Obligations.InstructionLengthIsCountPlusOne := by
  intro cfg op b1 b2 i hw h
  obtain ⟨-, -, -, hcnt, -, -⟩ := hw
  have henc := encode_of_decode hcnt h
  have hle := operandCount_le_two_of_decode hcnt h
  have hlen : (encode cfg i).length = operandCount op + 1 := by
    rw [henc, List.length_take_of_le (Nat.succ_le_succ hle)]
  exact ⟨henc, hlen, by omega, by omega⟩

/-- Settles O14: decoding looks at the counted operand bytes alone (`decode_of_take_eq`), and the fetch fails
at its first address outside memory before anything is decoded. -/
theorem unusedOperandBytesHaveNoEffect : Obligations.UnusedOperandBytesHaveNoEffect := by
  refine ⟨fun cfg op b1 b2 i hw h => ?_, fun s op b1 b2 hfetch => ?_, fun s => step_fetch_outside⟩
  · obtain ⟨-, -, -, hcnt, -, -⟩ := hw
    refine ⟨fun hle c2 => decode_of_take_eq hcnt h ?_, fun hzero c1 c2 => decode_of_take_eq hcnt h ?_⟩
    · obtain hzero | hone := Nat.le_one_iff_eq_zero_or_eq_one.1 hle
      · simp [hzero]
      · simp [hone]
    · simp [hzero]
  · obtain ⟨hs, -, h0, h1, h2⟩ := hfetch
    have hf := fetch_of_reads h0 h1 h2
    cases hd : decode s.cfg op b1 b2 with
    | ok i => exact step_decoded hs hf hd
    | error e => exact step_unknown hs hf (decode_error hd).1

end Sys2Proof.Machine

/-! ## Fetch and HALT (40_engine.md R101, R106, R108) -/

namespace Sys2Proof.Machine

/-- The end of a step after a handler that left the engine running and the halt flag set: the advance, then
the halt transition (40_engine.md R104, R106). -/
theorem endStep_halting {t : State} (h : t.state = .running) (hh : t.halt = true) (op : Byte) (pc : Nat) :
    endStep op pc t =
      { t with pc := if setsPc op then t.pc else pc + operandCount op + 1, state := .halted } := by
  rw [endStep_running h, haltTransition_halting (by rw [advance_eq]; exact hh), advance_eq]
  rfl

/-- A step of a running engine that decodes HLT, whatever byte the opcode map gives it. -/
theorem step_of_decode_hlt {s : State} {op b1 b2 : Byte} (hs : s.state = .running)
    (hf : fetch s = .ok (op, b1, b2)) (hd : decode s.cfg op b1 b2 = .ok .hlt) :
    step s = .next { s with
      halt := true
      pc := if setsPc op then s.pc else s.pc + operandCount op + 1
      state := .halted } := by
  rw [step_instr hs hf hd (exec_hlt s), endStep_halting (t := setHalt s) hs rfl]
  rfl

/-- A step on the byte that a well-formed opcode map gives HLT: the count of that byte is 0 and its bit 4 is
clear, so the pc moves by one (40_engine.md R108). -/
theorem step_hlt {s : State} {b1 b2 : Byte} (hw : s.cfg.WellFormed)
    (h : Claims.Fetches s s.cfg.opcodes.hlt b1 b2) :
    step s = .next { s with halt := true, state := .halted, pc := s.pc + 1 } := by
  obtain ⟨-, -, hdis, hcnt, hjump, hadv⟩ := hw
  obtain ⟨hs, -, h0, h1, h2⟩ := h
  have hactive : Opcode.hlt ∈ s.cfg.active := mem_active_of_base (by decide)
  have hsets : setsPc s.cfg.opcodes.hlt = false := setsPc_byteOf (o := .hlt) hjump hadv hactive
  have hcount : operandCount s.cfg.opcodes.hlt = 0 := operandCount_byteOf (o := .hlt) hcnt hactive
  rw [step_of_decode_hlt hs (fetch_of_reads h0 h1 h2) (decode_byteOf hdis hactive b1 b2), hsets, hcount]
  rfl

/-! ### The obligations -/

/-- Settles O16, from the four cases of a fetch and the step of a failed one. -/
theorem fetchReadsThreeBytesInOrder : Obligations.FetchReadsThreeBytesInOrder :=
  fun _ => ⟨fetch_first, fetch_second, fetch_third,
    fun h => ⟨_, _, _, memRead_of_lt (by omega), memRead_of_lt (by omega), memRead_of_lt h, fetch_inside h⟩,
    fun _ => step_fetch_error⟩

/-- Settles O19: only a decoded HLT sets the halt flag (`step_halt`), its step ends in HALTED, and an engine
halted with the flag set has no step, which its memory does not enter into (`no_step_of_halt`). -/
theorem haltEndsTheRun : Obligations.HaltEndsTheRun := by
  refine ⟨fun s t hs h ht => ?_, fun s b1 b2 hw hfetch => ?_⟩
  · obtain hkept | ⟨op, b1, b2, hf, hd⟩ := step_halt h
    · rw [hkept, hs] at ht
      cases ht
    · rw [step_of_decode_hlt (step_cases h).1 hf hd] at h
      cases h
      rfl
  · exact ⟨_, step_hlt hw hfetch, rfl, rfl, fun _ => no_step_of_halt (iff_of_true rfl rfl) rfl⟩

/-- Settles O39, from the step on HLT (`step_hlt`), the halted engine's having no step, and the fetch that fails
at the first of its addresses outside memory. -/
theorem haltInstruction : Obligations.HaltInstruction := by
  refine ⟨exec_hlt, fun s b1 b2 hw hfetch => ?_, rfl, fun s hs hpc => ?_, fun s => step_fetch_outside⟩
  · exact ⟨step_hlt hw hfetch, fun _ => no_step_of_halt (iff_of_true rfl rfl) rfl⟩
  · have hmax : max s.pc 256 = 256 := by omega
    rw [step_fetch_outside hs (by omega), hmax]

end Sys2Proof.Machine

/-! ## Load immediate and print (41_load_print.md R120, R122) -/

namespace Sys2Proof.Machine

/-! ### A step on the byte of a given opcode -/

/-- A step on the byte of an active opcode that is no jump, after a handler that left the engine state and the
halt flag alone: the handler's state, with the pc moved past the operands (40_engine.md R104). -/
theorem step_fetches_advances {s t : State} {o : Opcode} {b1 b2 : Byte} (hw : s.cfg.WellFormed)
    (ho : o ∈ s.cfg.active) (hj : o.isJump = false)
    (h : Claims.Fetches s (s.cfg.opcodes.byteOf o) b1 b2)
    (he : exec (assemble o b1 b2) s = .next t) (ht : t.state = s.state) (hh : t.halt = s.halt) :
    step s = .next { t with pc := s.pc + o.operands + 1 } := by
  obtain ⟨hs, hhalt, h0, h1, h2⟩ := h
  rw [step_opcode hw ho hs (fetch_of_reads h0 h1 h2) he (ht.trans hs) (hh.trans hhalt), hj]
  rfl

/-- A step on the byte of an active opcode whose handler raises an error is that error taken (40_engine.md
R107). -/
theorem step_fetches_raises {s : State} {o : Opcode} {b1 b2 : Byte} {e : FatalError}
    (hw : s.cfg.WellFormed) (ho : o ∈ s.cfg.active)
    (h : Claims.Fetches s (s.cfg.opcodes.byteOf o) b1 b2)
    (he : exec (assemble o b1 b2) s = .next (raise e s)) : step s = .next (raise e s) := by
  obtain ⟨-, -, hdis, -, -, -⟩ := hw
  obtain ⟨hs, -, h0, h1, h2⟩ := h
  exact step_faulting hs (fetch_of_reads h0 h1 h2) (decode_byteOf hdis ho b1 b2) he (raise_state e s)

/-! ### LDI -/

/-- A register of 8 or more bits takes the immediate byte as it is: the reduction mod 2^W does nothing. -/
theorem exec_ldi_byte {s : State} {r v : Byte} (hwidth : 8 ≤ s.cfg.wordBits) (hr : r.toNat < 8) :
    exec (.ldi r v) s = .next { s with x := s.x.set r.toNat v.toNat } := by
  rw [exec_ldi_ok hr, wrap_zext hwidth]

theorem step_ldi {s : State} {r v : Byte} (hw : s.cfg.WellFormed)
    (h : Claims.Fetches s s.cfg.opcodes.ldi r v) (hr : r.toNat < 8) :
    step s = .next { s with x := s.x.set r.toNat v.toNat, pc := s.pc + 3 } := by
  have ⟨hwidth, _⟩ := hw
  exact step_fetches_advances (o := .ldi) hw (mem_active_of_base (by decide)) rfl h
    (exec_ldi_byte hwidth hr) rfl rfl

theorem step_ldi_invalid {s : State} {r v : Byte} (hw : s.cfg.WellFormed)
    (h : Claims.Fetches s s.cfg.opcodes.ldi r v) (hr : 8 ≤ r.toNat) :
    step s = .next (raise (.invalidRegister r.toNat) s) :=
  step_fetches_raises (o := .ldi) hw (mem_active_of_base (by decide)) h (exec_ldi_invalid hr)

/-! ### PRN -/

theorem step_prn {s : State} {r b2 : Byte} (hw : s.cfg.WellFormed)
    (h : Claims.Fetches s s.cfg.opcodes.prn r b2) (hr : r.toNat < 8) :
    step s = .next { s with out := s.out ++ [s.x[r.toNat]], pc := s.pc + 2 } :=
  step_fetches_advances (o := .prn) hw (mem_active_of_base (by decide)) rfl h (exec_prn_ok hr) rfl rfl

theorem step_prn_invalid {s : State} {r b2 : Byte} (hw : s.cfg.WellFormed)
    (h : Claims.Fetches s s.cfg.opcodes.prn r b2) (hr : 8 ≤ r.toNat) :
    step s = .next (raise (.invalidRegister r.toNat) s) :=
  step_fetches_raises (o := .prn) hw (mem_active_of_base (by decide)) h (exec_prn_invalid hr)

/-! ### The obligations -/

/-- Settles O40, from what the handler of LDI answers in the two cases of its register index, and the step over
it in each (`step_ldi`, `step_ldi_invalid`). -/
theorem loadImmediateInstruction : Obligations.LoadImmediateInstruction :=
  ⟨fun _ _ _ => exec_ldi_byte, fun _ _ _ => exec_ldi_invalid,
    fun _ _ _ hw h => ⟨step_ldi hw h, step_ldi_invalid hw h⟩, fun _ _ => rfl, fun _ => step_fetch_outside⟩

/-- Settles O41, from what the handler of PRN answers in the two cases of its register index, and the step over
it in each (`step_prn`, `step_prn_invalid`). -/
theorem printRegisterInstruction : Obligations.PrintRegisterInstruction :=
  ⟨fun _ _ => ⟨exec_prn_ok, exec_prn_invalid⟩,
    fun _ _ _ hw h => ⟨step_prn hw h, step_prn_invalid hw h⟩, fun _ => rfl, fun _ => step_fetch_outside⟩

end Sys2Proof.Machine

/-! ## Multiply (42_alu.md R142) -/

namespace Sys2Proof.Machine

/-! ### The handler of a two-operand ALU instruction -/

/-- The reduction of a register write does nothing to a value that the ALU has already reduced. -/
theorem wrap_mod (w v : Nat) : wrap w (v % 2 ^ w) = v % 2 ^ w := Nat.mod_mod v _

theorem exec_aluTwo_left {i : Instr} {op : AluOp} {a b : Byte} {s : State}
    (hi : aluTwoForm i = some (op, a, b)) (ha : 8 ≤ a.toNat) :
    exec i s = .next (raise (.invalidRegister a.toNat) s) := by
  rw [exec_aluTwo hi, aluTwo_left ha, commit_error]

theorem exec_aluTwo_right {i : Instr} {op : AluOp} {a b : Byte} {s : State}
    (hi : aluTwoForm i = some (op, a, b)) (ha : a.toNat < 8) (hb : 8 ≤ b.toNat) :
    exec i s = .next (raise (.invalidRegister b.toNat) s) := by
  rw [exec_aluTwo hi, aluTwo_right ha hb, commit_error]

/-! ### MUL -/

/-- MUL is supported whatever the profile, so its handler writes the product as the ALU reduced it. -/
theorem exec_mul_ok {a b : Byte} {s : State} (ha : a.toNat < 8) (hb : b.toNat < 8) :
    exec (.mul a b) s = .next { s with
      x := s.x.set a.toNat ((s.x[a.toNat] * s.x[b.toNat]) % 2 ^ s.cfg.wordBits) } := by
  rw [exec_aluTwo rfl, aluTwo_ok ha hb rfl, commit_ok, aluValue, wrap_mod]

theorem step_mul {s : State} {a b : Byte} (hw : s.cfg.WellFormed)
    (h : Claims.Fetches s s.cfg.opcodes.mul a b) (ha : a.toNat < 8) (hb : b.toNat < 8) :
    step s = .next { s with
      x := s.x.set a.toNat ((s.x[a.toNat] * s.x[b.toNat]) % 2 ^ s.cfg.wordBits)
      pc := s.pc + 3 } :=
  step_fetches_advances (o := .mul) hw (mem_active_of_base (by decide)) rfl h (exec_mul_ok ha hb) rfl rfl

/-- A step on MUL whose handler raises an error is that error taken. -/
theorem step_mul_raises {s : State} {a b : Byte} {e : FatalError} (hw : s.cfg.WellFormed)
    (h : Claims.Fetches s s.cfg.opcodes.mul a b) (he : exec (.mul a b) s = .next (raise e s)) :
    step s = .next (raise e s) :=
  step_fetches_raises (o := .mul) hw (mem_active_of_base (by decide)) h he

/-! ### The obligations -/

/-- Settles O42, from what the handler of MUL answers in the three cases of its register indices, the first
checked before the second, and the step over it in each (`step_mul`, `step_mul_raises`). -/
theorem multiplyInstruction : Obligations.MultiplyInstruction :=
  ⟨fun _ _ _ => ⟨exec_mul_ok, exec_aluTwo_left rfl, exec_aluTwo_right rfl⟩,
    fun _ _ _ hw h => ⟨step_mul hw h,
      fun ha => step_mul_raises hw h (exec_aluTwo_left rfl ha),
      fun ha hb => step_mul_raises hw h (exec_aluTwo_right rfl ha hb)⟩,
    fun _ _ => rfl, fun _ => step_fetch_outside⟩

end Sys2Proof.Machine

/-! ## Jump (44_compare_branch.md R182) -/

namespace Sys2Proof.Machine

/-! ### The handler of a taken jump -/

theorem exec_jump_taken {i : Instr} {r : Byte} {s : State} (hi : jumpForm s i = some (true, r)) :
    exec i s = commit s (jumpTo r s) := by
  rw [exec_jump hi, jumpIf, if_pos rfl]

theorem exec_jump_taken_ok {i : Instr} {r : Byte} {s : State} (hi : jumpForm s i = some (true, r))
    (hr : r.toNat < 8) : exec i s = .next { s with pc := s.x[r.toNat] } := by
  rw [exec_jump_taken hi, jumpTo_ok hr, commit_ok, setPc]

theorem exec_jump_taken_invalid {i : Instr} {r : Byte} {s : State} (hi : jumpForm s i = some (true, r))
    (hr : 8 ≤ r.toNat) : exec i s = .next (raise (.invalidRegister r.toNat) s) := by
  rw [exec_jump_taken hi, jumpTo_invalid hr, commit_error]

/-! ### A step on the byte of a jump -/

/-- A step on the byte of an active jump, after a handler that left the engine state and the halt flag alone:
the handler's state itself, with no advance added (40_engine.md R104). -/
theorem step_fetches_jumps {s t : State} {o : Opcode} {b1 b2 : Byte} (hw : s.cfg.WellFormed)
    (ho : o ∈ s.cfg.active) (hj : o.isJump = true)
    (h : Claims.Fetches s (s.cfg.opcodes.byteOf o) b1 b2)
    (he : exec (assemble o b1 b2) s = .next t) (ht : t.state = s.state) (hh : t.halt = s.halt) :
    step s = .next t := by
  obtain ⟨hs, hhalt, h0, h1, h2⟩ := h
  rw [step_opcode hw ho hs (fetch_of_reads h0 h1 h2) he (ht.trans hs) (hh.trans hhalt), hj]
  rfl

/-! ### JMP -/

theorem step_jmp {s : State} {r b2 : Byte} (hw : s.cfg.WellFormed)
    (h : Claims.Fetches s s.cfg.opcodes.jmp r b2) (hr : r.toNat < 8) :
    step s = .next { s with pc := s.x[r.toNat] } :=
  step_fetches_jumps (o := .jmp) hw (mem_active_of_base (by decide)) rfl h
    (exec_jump_taken_ok rfl hr) rfl rfl

theorem step_jmp_invalid {s : State} {r b2 : Byte} (hw : s.cfg.WellFormed)
    (h : Claims.Fetches s s.cfg.opcodes.jmp r b2) (hr : 8 ≤ r.toNat) :
    step s = .next (raise (.invalidRegister r.toNat) s) :=
  step_fetches_raises (o := .jmp) hw (mem_active_of_base (by decide)) h
    (exec_jump_taken_invalid rfl hr)

/-! ### The obligation -/

/-- Settles O47, from what the handler of a taken jump answers in the two cases of its register index, and the
step over it in each (`step_jmp`, `step_jmp_invalid`). -/
theorem jumpInstruction : Obligations.JumpInstruction :=
  ⟨fun _ _ => ⟨exec_jump_taken_ok rfl, exec_jump_taken_invalid rfl⟩,
    fun _ _ _ hw h => ⟨step_jmp hw h, step_jmp_invalid hw h⟩, fun _ => rfl, rfl, fun _ => step_fetch_outside⟩

end Sys2Proof.Machine

/-! ## Engine construction (70_reset_and_hazards.md R260) -/

namespace Sys2Proof.Machine

/-- A memory that lists no cell reads as blank at every address. -/
@[simp] theorem peek_nil (a : Nat) : Memory.peek [] a = Memory.blank := rfl

/-- Memory is zero-filled at construction (10_state.md R41). -/
theorem memRead_construct (cfg : Config) {a : Nat} (ha : a < 256) :
    memRead (State.construct cfg) a = .ok 0#8 := by
  rw [memRead_of_lt ha, construct_mem, peek_nil, Memory.blank]

theorem construct_x_getElem (cfg : Config) (i : Nat) (hi : i < 8) :
    (State.construct cfg).x[i] = 0 := by
  simp only [construct_x, Vector.getElem_replicate]

theorem construct_flagL (cfg : Config) : flagL (State.construct cfg).fl = false := by
  rw [construct_fl, flagL, BitVec.getLsbD_zero]

theorem construct_flagE (cfg : Config) : flagE (State.construct cfg).fl = false := by
  rw [construct_fl, flagE, BitVec.getLsbD_zero]

theorem construct_flagG (cfg : Config) : flagG (State.construct cfg).fl = false := by
  rw [construct_fl, flagG, BitVec.getLsbD_zero]

/-- Settles O1, from what construction makes of each field (`memRead_construct`, `construct_x_getElem`, the
three flags, and the remaining `construct_` lemmas of the state). -/
theorem constructionGivesResetValues : Obligations.ConstructionGivesResetValues :=
  fun cfg => ⟨fun _ => memRead_construct cfg, construct_x_getElem cfg, construct_flagL cfg,
    construct_flagE cfg, construct_flagG cfg, construct_halt cfg, construct_state cfg, construct_pc cfg,
    construct_out cfg⟩

end Sys2Proof.Machine

/-! ## Encoding and placed instructions (30_encoding.md R70 to R84) -/

namespace Sys2Proof

theorem operandBytes_length (i : Instr) : i.operandBytes.length = i.opcode.operands := by
  cases i <;> rfl

/-- No encoding is longer than the three bytes a fetch reads. -/
theorem encode_length_le_three (cfg : Config) (i : Instr) : (encode cfg i).length ≤ 3 := by
  rw [encode, List.length_cons, operandBytes_length]
  exact Nat.succ_le_succ (operands_le_two i.opcode)

/-- Decoding inverts encoding while the bytes of the active opcodes are distinct: the opcode byte selects the
opcode, and the opcode takes its operands from the bytes after it. -/
theorem decodeBytes_encode {cfg : Config} (hdis : cfg.DistinctOk) {i : Instr} (hi : i.WellFormed cfg)
    (p q : Byte) (rest : List Byte) : decodeBytes cfg (encode cfg i ++ p :: q :: rest) = .ok i := by
  obtain ⟨b1, b2, tl, hbytes, hasm⟩ := assemble_operandBytes i p q rest
  rw [encode, List.cons_append, hbytes, decodeBytes, decode_byteOf hdis hi, hasm]

/-- Three bytes that begin with the encoding of an instruction decode to it. -/
theorem decode_of_encode_prefix {cfg : Config} (hdis : cfg.DistinctOk) {i : Instr}
    (hi : i.WellFormed cfg) {op b1 b2 : Byte} (h : encode cfg i <+: [op, b1, b2]) :
    decode cfg op b1 b2 = .ok i := by
  obtain ⟨tl, htl⟩ := h
  obtain ⟨p, q, rest, hpad⟩ : ∃ p q rest, tl ++ [0#8, 0#8] = p :: q :: rest := by
    cases tl with
    | nil => exact ⟨_, _, _, rfl⟩
    | cons p tl => cases tl <;> exact ⟨_, _, _, rfl⟩
  have hbytes : op :: b1 :: b2 :: [0#8, 0#8] = encode cfg i ++ p :: q :: rest := by
    rw [← hpad, ← List.append_assoc, htl]
    rfl
  rw [← decodeBytes_encode hdis hi p q rest, ← hbytes, decodeBytes]

/-- The bytes that decode are those the map gives the active opcodes. -/
theorem decodes_iff (cfg : Config) (op b1 b2 : Byte) :
    (∃ i, decode cfg op b1 b2 = .ok i) ↔ op ∈ cfg.active.map cfg.opcodes.byteOf := by
  constructor
  · rintro ⟨i, h⟩
    obtain ⟨hmem, hbyte⟩ := decode_opcode h
    exact List.mem_map.2 ⟨i.opcode, hmem, hbyte⟩
  · intro hop
    obtain ⟨o, ho, hbyte⟩ := List.mem_map.1 hop
    cases h : cfg.opcodeOf op with
    | some p => exact ⟨_, decode_of_some h b1 b2⟩
    | none => exact absurd hbyte (by simpa using List.find?_eq_none.1 h o ho)

/-- The operand bytes of a decoded instruction are the first of the two after the opcode. -/
theorem operandBytes_prefix_of_decode {cfg : Config} {op b1 b2 : Byte} {i : Instr}
    (h : decode cfg op b1 b2 = .ok i) : i.operandBytes <+: [b1, b2] := by
  obtain ⟨o, -, rfl⟩ := decode_ok h
  rw [operandBytes_assemble]
  exact List.take_prefix _ _

/-- With the profile off no instruction of the profile is decoded (30_encoding.md R78). -/
theorem opcode_of_decode_base {cfg : Config} (hext : cfg.aluExt = false) {op b1 b2 : Byte} {i : Instr}
    (h : decode cfg op b1 b2 = .ok i) : i.opcode ∉ extOpcodes := by
  have hbase : i.opcode ∈ baseOpcodes := active_of_base hext ▸ (decode_opcode h).1
  have hdisjoint : ∀ o ∈ baseOpcodes, o ∉ extOpcodes := by decide
  exact hdisjoint _ hbase

/-- A byte whose operand count is 3 is no opcode: no opcode of an allowed map has more than two operands. -/
theorem decode_count_three {cfg : Config} (hcnt : cfg.CountsOk) {op : Byte} (hop : operandCount op = 3)
    (b1 b2 : Byte) : decode cfg op b1 b2 = .error (.unknownOpcode op) := by
  cases h : decode cfg op b1 b2 with
  | error e => rw [(decode_error h).2]
  | ok i =>
    have hle := operandCount_le_two_of_decode hcnt h
    omega

end Sys2Proof

namespace Sys2Proof.Machine

/-! ### Fetching placed bytes -/

/-- A placed byte sequence that fits is read back from its address upwards. -/
theorem place_prefix {m : Memory} (hm : Memory.wf m) {a n : Nat} {bs : List Byte}
    (hfit : a + bs.length ≤ 256) (hn : bs.length ≤ n) :
    bs <+: (List.range n).map fun k => Memory.peek (Memory.place m a bs) (a + k) := by
  refine List.prefix_iff_getElem.2 ⟨by simpa using hn, fun k hk => ?_⟩
  rw [List.getElem_map, List.getElem_range, peek_place hm hfit, if_pos ⟨by omega, by omega⟩,
    Nat.add_sub_cancel_left, List.getD_eq_getElem _ _ hk]

/-- The three bytes fetched where an instruction's encoding was placed decode to the instruction. -/
theorem fetch_place_encode {s : State} {i : Instr} (hdis : s.cfg.DistinctOk) (hm : Memory.wf s.mem)
    (hi : i.WellFormed s.cfg) (hpc : s.pc + 2 < 256) :
    ∃ b1 b2, fetch { s with mem := Memory.place s.mem s.pc (encode s.cfg i) } =
        .ok (s.cfg.opcodes.byteOf i.opcode, b1, b2) ∧
      decode s.cfg (s.cfg.opcodes.byteOf i.opcode) b1 b2 = .ok i := by
  have hlen := encode_length_le_three s.cfg i
  have hdec := decode_of_encode_prefix hdis hi (place_prefix hm (a := s.pc) (n := 3) (by omega) hlen)
  have hbyte := (decode_opcode hdec).2
  rw [← hbyte] at hdec
  have hf := fetch_inside (s := { s with mem := Memory.place s.mem s.pc (encode s.cfg i) }) hpc
  exact ⟨_, _, by rw [hbyte]; exact hf, hdec⟩

/-- A step of a running engine on an unknown opcode under `noop` moves the pc by the decoded size alone
(40_engine.md R105). -/
theorem step_unknown_noop {s : State} {op b1 b2 : Byte} (h : Claims.Fetches s op b1 b2)
    (hd : decode s.cfg op b1 b2 = .error (.unknownOpcode op)) (hp : s.cfg.unknownOpcode = .noop) :
    step s = .next { s with pc := s.pc + operandCount op + 1 } := by
  obtain ⟨hs, hh, h0, h1, h2⟩ := h
  rw [step_unknown hs (fetch_of_reads h0 h1 h2) (decode_error hd).1, unknownStep_noop hp,
    haltTransition_running (by rw [setPc_halt, hh]), setPc]

/-- A step of a running engine on an unknown opcode under `fault` raises `UnknownOpcode`. -/
theorem step_unknown_fault {s : State} {op b1 b2 : Byte} (h : Claims.Fetches s op b1 b2)
    (hd : decode s.cfg op b1 b2 = .error (.unknownOpcode op)) (hp : s.cfg.unknownOpcode = .fault) :
    step s = .next (raise (.unknownOpcode op) s) := by
  obtain ⟨hs, -, h0, h1, h2⟩ := h
  rw [step_unknown hs (fetch_of_reads h0 h1 h2) (decode_error hd).1, unknownStep_fault hp]

/-! ### The obligations -/

/-- Settles O7, by `decodeBytes_encode`. -/
theorem decodeInvertsEncode : Obligations.DecodeInvertsEncode := by
  intro cfg i p q rest hw hi
  obtain ⟨-, -, hdis, -, -, -⟩ := hw
  exact decodeBytes_encode hdis hi p q rest

/-- Settles O8: what is fetched at the pc decodes to the instruction placed there (`fetch_place_encode`), and a
handler always answers a next state (`exec_next`). -/
theorem placedInstructionRuns : Obligations.PlacedInstructionRuns := by
  intro s i hw hm hi hs hpc
  obtain ⟨-, -, hdis, -, -, -⟩ := hw
  obtain ⟨b1, b2, hf, hd⟩ := fetch_place_encode hdis hm hi hpc
  obtain ⟨t, ht⟩ := exec_next i { s with mem := Memory.place s.mem s.pc (encode s.cfg i) }
  exact ⟨t, ht, step_instr hs hf hd ht⟩

/-- Settles O12, from what is decoded while the profile is off (`opcode_of_decode_base`) and the round trip of
the encoding while it is on. -/
theorem profileGatesExtension : Obligations.ProfileGatesExtension := by
  refine ⟨fun cfg op b1 b2 i hext => opcode_of_decode_base hext, fun cfg i p q hw hext _ => ?_⟩
  obtain ⟨-, -, hdis, -, -, -⟩ := hw
  exact decodeBytes_encode hdis (mem_active_of_ext hext i.opcode) p q []

/-- Settles O13, from `decode_count_three` and the step on an unknown opcode (`step_unknown_noop`). -/
theorem countThreeBytesAreUnknown : Obligations.CountThreeBytesAreUnknown := by
  intro s op b1 b2 hw hop
  obtain ⟨-, -, -, hcnt, -, -⟩ := hw
  have hd := decode_count_three hcnt hop b1 b2
  exact ⟨hd, fun h hp => by rw [step_unknown_noop h hd hp, hop]⟩

/-- Settles O18, from the step on an unknown opcode under each policy. -/
theorem unknownOpcodeFollowsPolicy : Obligations.UnknownOpcodeFollowsPolicy :=
  fun _ _ _ _ h hd => ⟨step_unknown_noop h hd, step_unknown_fault h hd⟩

/-- Settles O9, by running the decoder on each word. -/
theorem sampleWordsDecode : Obligations.SampleWordsDecode := by
  refine ⟨?_, ?_, ?_, ?_, ?_, ?_, ?_, ?_⟩ <;> decide

/-- Settles O10, by checking each constraint on the two maps. -/
theorem defaultMapMeetsConstraints : Obligations.DefaultMapMeetsConstraints := by
  constructor <;> decide

/-- Settles O11: the bytes that decode are those of the active opcodes (`decodes_iff`), and under the default
parameters these are the ten listed. -/
theorem baseProfileDefinesTenBytes : Obligations.BaseProfileDefinesTenBytes :=
  decodes_iff Config.default

end Sys2Proof.Machine

/-! ## What a step of the engine can do (40_engine.md R100 to R110) -/

namespace Sys2Proof.Machine

/-! ### The end of a step -/

/-- The end of a step after a handler that raised no error: the advance and the halt transition. -/
theorem endStep_of_ne_faulted {t : State} (h : t.state ≠ .faulted) (op : Byte) (pc : Nat) :
    endStep op pc t = { t with
      pc := if setsPc op then t.pc else pc + operandCount op + 1
      state := if t.halt then .halted else t.state } := by
  cases hs : t.state with
  | faulted => exact absurd hs h
  | running => rw [endStep_running hs, haltTransition_eq, advance_eq, ← hs]; rfl
  | halted => simp only [endStep, hs, haltTransition_eq, advance_eq, setPc]

/-! ### When there is a step -/

theorem step_halted {s : State} (h : s.state = .halted) : step s = .fault .engineHalted := by
  simp only [step, h]

theorem step_stopped_faulted {s : State} (h : s.state = .faulted) :
    step s = .fault (.engineFaulted s.fault) := by
  simp only [step, h]

/-- A running engine has a step, whether its fetch fails, its opcode is unknown or a handler runs. -/
theorem step_next {s : State} (hs : s.state = .running) : ∃ t, step s = .next t := by
  cases hf : fetch s with
  | error e => exact ⟨_, step_fetch_error hs hf⟩
  | ok f =>
    obtain ⟨op, b1, b2⟩ := f
    cases ho : s.cfg.opcodeOf op with
    | some o =>
      obtain ⟨t, ht⟩ := exec_next (assemble o b1 b2) s
      exact ⟨_, step_instr hs hf (decode_of_some ho b1 b2) ht⟩
    | none =>
      rw [step_unknown hs hf ho]
      cases hp : s.cfg.unknownOpcode with
      | noop => exact ⟨_, unknownStep_noop hp op⟩
      | fault => exact ⟨_, unknownStep_fault hp op⟩

/-! ### The outcome of a step -/

/-- The errors a step can take: those of a handler of a decoded instruction, of the fetch, and of an unknown
opcode in strict mode. `UnsupportedOperation` is not among them, since the decoder yields no instruction of a
profile that is off. -/
def StepError (s : State) : FatalError → Prop
  | .outOfBounds a => 256 ≤ a
  | .invalidRegister k => 8 ≤ k
  | .unsupportedOperation _ => False
  | .unknownOpcode b =>
    s.cfg.unknownOpcode = .fault ∧ opcodeAtPc s = some b ∧ s.cfg.opcodeOf b = none

/-- `step_cases` with the step's end computed: an error taken, an unknown opcode passed over, or the state of
a handler that raised no error, with the pc advanced and the halt flag tested. -/
inductive StepOutcome (s t : State) : Prop where
  | raises (e : FatalError) (he : StepError s e) (ht : t = raise e s)
  | skips (op : Byte)
      (ht : t = { s with
        pc := s.pc + operandCount op + 1
        state := if s.halt then .halted else .running })
  | completes (op b1 b2 : Byte) (i : Instr) (u : State) (hf : fetch s = .ok (op, b1, b2))
      (hd : decode s.cfg op b1 b2 = .ok i) (he : exec i s = .next u) (hu : u.state = .running)
      (ht : t = { u with
        pc := if setsPc op then u.pc else s.pc + operandCount op + 1
        state := if u.halt then .halted else .running })

/-- A decoded instruction's handler raises only errors that a step can take. -/
theorem stepError_of_handlerError {s : State} {op b1 b2 : Byte} {i : Instr} {e : FatalError}
    (hd : decode s.cfg op b1 b2 = .ok i) (he : HandlerError i s e) : StepError s e := by
  cases e with
  | outOfBounds a => exact he.1
  | invalidRegister k => exact he
  | unsupportedOperation op => exact opcode_of_decode_base he.1 hd he.2
  | unknownOpcode b => exact he.elim

theorem step_outcome {s t : State} (h : step s = .next t) : StepOutcome s t := by
  obtain ⟨hs, hcase⟩ := step_cases h
  cases hcase with
  | fetchFails a ha hf ht => exact .raises (.outOfBounds a) ha ht
  | skips op b1 b2 hf hd hp ht =>
    exact .skips op (by rw [ht, haltTransition_eq, ← hs]; rfl)
  | rejects op b1 b2 hf hd hp ht =>
    obtain ⟨hpc, rfl, -, -⟩ := fetch_ok hf
    exact .raises (.unknownOpcode _) ⟨hp, if_pos (by omega), hd⟩ ht
  | runs op b1 b2 i u hf hd he ht =>
    obtain hu | hu := exec_state he
    · rw [hs] at hu
      refine .completes op b1 b2 i u hf hd he hu ?_
      rw [ht, endStep_of_ne_faulted (by rw [hu]; decide), hu]
    · obtain ⟨e, herr, rfl⟩ := exec_faulted he (by rw [hs]; decide) hu
      exact .raises e (stepError_of_handlerError hd herr) (ht.trans (endStep_faulted hu _ _))

/-- A step that ends in FAULTED is an error taken. -/
theorem step_faulted {s t : State} (h : step s = .next t) (ht : t.state = .faulted) :
    ∃ e, StepError s e ∧ t = raise e s := by
  cases step_outcome h with
  | raises e he ht => exact ⟨e, he, ht⟩
  | skips op heq =>
    rw [heq] at ht
    cases hh : s.halt <;> simp [hh] at ht
  | completes op b1 b2 i u hf hd he hu heq =>
    rw [heq] at ht
    cases hh : u.halt <;> simp [hh] at ht

/-- A step that does not fault leaves the engine HALTED or RUNNING by the halt flag (40_engine.md R106). -/
theorem step_state {s t : State} (h : step s = .next t) :
    t.state = .faulted ∨ t.state = if t.halt then .halted else .running := by
  cases step_outcome h with
  | raises e he ht => exact .inl (by rw [ht, raise_state])
  | skips op ht => exact .inr (by rw [ht])
  | completes op b1 b2 i u hf hd he hu ht => exact .inr (by rw [ht])

/-- What a step does to anything that the pc, the engine state and the fault record do not enter: it is as
before, or as a decoded instruction's handler left it. -/
theorem step_field {α : Sort _} (f : State → α)
    (hf : ∀ s p e r, f { s with pc := p, state := e, fault := r } = f s) {s t : State}
    (h : step s = .next t) :
    f t = f s ∨ ∃ op b1 b2 i u, fetch s = .ok (op, b1, b2) ∧ decode s.cfg op b1 b2 = .ok i ∧
      exec i s = .next u ∧ f t = f u := by
  cases step_outcome h with
  | raises e he ht => exact .inl (ht ▸ hf s _ _ _)
  | skips op ht => exact .inl (ht ▸ hf s _ _ s.fault)
  | completes op b1 b2 i u hfetch hd he hu ht =>
    exact .inr ⟨op, b1, b2, i, u, hfetch, hd, he, ht ▸ hf u _ _ u.fault⟩

/-- No handler changes the parameters. -/
theorem exec_cfg {i : Instr} {s t : State} (h : exec i s = .next t) : t.cfg = s.cfg := by
  cases exec_effect h <;> rfl

theorem step_cfg {s t : State} (h : step s = .next t) : t.cfg = s.cfg := by
  obtain heq | ⟨_, _, _, i, u, -, -, he, heq⟩ := step_field State.cfg (fun _ _ _ _ => rfl) h
  · exact heq
  · exact heq.trans (exec_cfg he)

/-! ### Runs -/

/-- A step before a run. -/
theorem Reaches.head {s t u : State} (h : step s = .next t) (hr : Reaches t u) : Reaches s u := by
  induction hr with
  | here => exact .after s t .here h
  | after v w _ hstep ih => exact .after v w ih hstep

/-- What the end of a run from `s` has to say: its state is reached, and in the engine state it names. -/
def RunEnd.HonestFrom (s : State) : RunEnd → Prop
  | .halted t => t.state = .halted ∧ Reaches s t
  | .faulted t => t.state = .faulted ∧ Reaches s t
  | .notEnded t => t.state = .running ∧ Reaches s t

theorem RunEnd.HonestFrom.head {s t : State} (h : step s = .next t) {r : RunEnd}
    (hr : r.HonestFrom t) : r.HonestFrom s := by
  cases r <;> exact ⟨hr.1, hr.2.head h⟩

theorem runEnd_honest (s : State) : (runEnd s).HonestFrom s := by
  unfold runEnd
  split <;> exact ⟨‹_›, .here⟩

/-- By induction on the fuel: a run stops where the engine has stopped or the fuel is used, and else goes on
from the state of its first step. -/
theorem runFuel_honest (n : Nat) (s : State) : (runFuel n s).HonestFrom s := by
  induction n generalizing s with
  | zero => exact runEnd_honest s
  | succ n ih =>
    unfold runFuel
    split
    · exact runEnd_honest s
    · exact runEnd_honest s
    · split
      · exact (ih _).head ‹_›
      · exact runEnd_honest s
      · exact runEnd_honest s

/-! ### The empty machine -/

/-- The byte 0 is no opcode of the default map (30_encoding.md R80). -/
theorem decode_default_zero : decode Config.default 0#8 0#8 0#8 = .error (.unknownOpcode 0#8) := by
  decide

/-- One step over the empty memory of the default machine: the byte 0 is no opcode, and moves the pc by one. -/
theorem step_reset_pc {k : Nat} (hk : k < 254) :
    step { State.reset with pc := k } = .next { State.reset with pc := k + 1 } :=
  have hread {a : Nat} (ha : a < 256) : memRead { State.reset with pc := k } a = .ok 0#8 :=
    memRead_construct Config.default ha
  step_unknown_noop (b1 := 0#8) (b2 := 0#8)
    ⟨rfl, rfl, hread (show k < 256 by omega), hread (show k + 1 < 256 by omega),
      hread (show k + 2 < 256 by omega)⟩ decode_default_zero rfl

/-- By induction on the number of steps, for every pc from which they stay inside memory. -/
theorem run_reset_pc (n k : Nat) (h : k + n ≤ 254) :
    Host.Core.run Sys2Proof.core n { State.reset with pc := k } = .next { State.reset with pc := k + n } := by
  induction n generalizing k with
  | zero => rfl
  | succ n ih =>
    have hstep : Sys2Proof.core.step { State.reset with pc := k } = .next { State.reset with pc := k + 1 } :=
      step_reset_pc (by omega)
    simp only [Host.Core.run, hstep]
    rw [ih (k + 1) (by omega), Nat.add_right_comm, Nat.add_assoc]

/-! ### The obligations -/

/-- Settles O4, by `step_cfg`. -/
theorem stepsNeverChangeParameters : Obligations.StepsNeverChangeParameters :=
  fun _ _ => step_cfg

/-- Settles O21, by `step_next`. -/
theorem runningEngineAlwaysSteps : Obligations.RunningEngineAlwaysSteps :=
  fun _ => step_next

/-- Settles O20, from the two engine states without a step. -/
theorem stoppedEngineHasNoStep : Obligations.StoppedEngineHasNoStep :=
  fun _ => ⟨step_halted, step_stopped_faulted⟩

/-- Settles O15: a handler always answers, and leaves a running engine RUNNING or FAULTED (`exec_state`). -/
theorem stepRunsDecodedInstruction : Obligations.StepRunsDecodedInstruction := by
  intro s op b1 b2 i h hd
  obtain ⟨hs, -, h0, h1, h2⟩ := h
  obtain ⟨t, ht⟩ := exec_next i s
  refine ⟨t, ht, ?_⟩
  rw [step_instr hs (fetch_of_reads h0 h1 h2) hd ht]
  by_cases hfaulted : t.state = .faulted
  · rw [if_pos hfaulted, endStep_faulted hfaulted]
  · have hrunning : t.state = .running := ((exec_state ht).resolve_right hfaulted).trans hs
    rw [if_neg hfaulted]
    by_cases hh : t.halt = true
    · rw [if_pos hh, endStep_halting hrunning hh]
    · rw [if_neg hh, endStep_going hrunning (Bool.eq_false_iff.2 hh)]

/-- Settles O22, by `runFuel_honest`. -/
theorem runUnderFuelReportsTheEngineState : Obligations.RunUnderFuelReportsTheEngineState := by
  intro n s t
  have h := runFuel_honest n s
  exact ⟨fun ht => by rw [ht] at h; exact h, fun ht => by rw [ht] at h; exact h,
    fun ht => by rw [ht] at h; exact h⟩

/-- Settles O23: the run by `run_reset_pc`, and one step each for its end and for strict mode. -/
theorem zeroMemoryRunFaultsAtTheEnd : Obligations.ZeroMemoryRunFaultsAtTheEnd := by
  refine ⟨fun n hn => ?_, step_fetch_error rfl (fetch_third (by decide) (by decide)),
    step_unknown_fault ⟨rfl, rfl, rfl, rfl, rfl⟩ decode_default_zero rfl⟩
  have h := run_reset_pc n 0 (by omega)
  rw [Nat.zero_add] at h
  exact h

end Sys2Proof.Machine

/-! ## The invariant is kept (10_state.md sections 1 to 5, 60_exceptions.md R231) -/

namespace Sys2Proof.Machine

/-! ### Registers, output and flags -/

/-- Writing a value in range to a register keeps the registers in range. -/
theorem regsOk_set {s : State} (h : s.RegsOk) {k : Nat} (hk : k < 8) {v : Nat}
    (hv : v < 2 ^ s.cfg.wordBits) : State.RegsOk { s with x := s.x.set k v hk } := by
  intro j
  show (s.x.set k v)[j.val] < 2 ^ s.cfg.wordBits
  rw [Vector.getElem_set]
  split
  · exact hv
  · exact h j

theorem regsOk_setSp {s : State} (h : s.RegsOk) (v : Nat) : (setSp s v).RegsOk :=
  regsOk_set h _ (wrap_lt _ _)

/-- Every register write of a handler is reduced mod 2^W (10_state.md R25). -/
theorem exec_regsOk {i : Instr} {s t : State} (h : exec i s = .next t) (hs : s.RegsOk) : t.RegsOk := by
  cases exec_effect h with
  | fails _ e he => exact hs
  | halts => exact hs
  | loads r v hr => exact regsOk_set hs hr (wrap_lt _ _)
  | prints r hr => exact hs
  | computes _ op a b ha hb hi => exact regsOk_set hs ha (wrap_lt _ _)
  | complements r hr => exact regsOk_set hs hr (wrap_lt _ _)
  | pushes r hr ha => exact regsOk_setSp hs _
  | pops r hr ha => exact regsOk_setSp (s := popped r hr s) (regsOk_set hs hr (wrap_lt _ _)) _
  | compares a b ha hb => exact hs
  | jumps _ r hr hi => exact hs
  | falls _ r hi => exact hs

/-- A handler leaves the output as it was, or is PRN and appends the register's value. -/
theorem exec_out {i : Instr} {s t : State} (h : exec i s = .next t) :
    t.out = s.out ∨ ∃ (r : Byte) (hr : r.toNat < 8), i = .prn r ∧ t.out = s.out ++ [s.x[r.toNat]] := by
  cases exec_effect h with
  | prints r hr => exact .inr ⟨r, hr, rfl, rfl⟩
  | _ => exact .inl rfl

/-- A handler leaves the flags as they were, or is CMP and gives them the relation of its registers. -/
theorem exec_fl {i : Instr} {s t : State} (h : exec i s = .next t) :
    t.fl = s.fl ∨ ∃ (a b : Byte) (ha : a.toNat < 8) (hb : b.toNat < 8), i = .cmp a b ∧
      t.fl = compareFlags s.x[a.toNat] s.x[b.toNat] := by
  cases exec_effect h with
  | compares a b ha hb => exact .inr ⟨a, b, ha, hb, rfl, rfl⟩
  | _ => exact .inl rfl

theorem exec_outOk {i : Instr} {s t : State} (h : exec i s = .next t) (hx : s.RegsOk)
    (hs : s.OutOk) : t.OutOk := by
  intro v hv
  rw [exec_cfg h]
  obtain heq | ⟨r, hr, -, heq⟩ := exec_out h <;> rw [heq] at hv
  · exact hs v hv
  · obtain hv | hv := List.mem_append.1 hv
    · exact hs v hv
    · rw [List.mem_singleton.1 hv]
      exact hx ⟨r.toNat, hr⟩

/-- A comparison sets exactly one of the three flags: L, E or G. -/
theorem compareFlags_legal (u v : Nat) :
    compareFlags u v = 1#8 ∨ compareFlags u v = 2#8 ∨ compareFlags u v = 4#8 := by
  unfold compareFlags
  obtain h | h | h := Nat.lt_trichotomy u v
  · exact .inr (.inr (by simp [packFlags, h, Nat.ne_of_lt h, Nat.lt_asymm h]))
  · exact .inl (by simp [packFlags, h])
  · exact .inr (.inl (by simp [packFlags, h, Nat.ne_of_gt h, Nat.lt_asymm h]))

theorem exec_flagsOk {i : Instr} {s t : State} (h : exec i s = .next t) (hs : s.FlagsOk) :
    t.FlagsOk := by
  unfold State.FlagsOk
  obtain heq | ⟨a, b, ha, hb, -, heq⟩ := exec_fl h <;> rw [heq]
  · exact hs
  · exact .inr (compareFlags_legal _ _)

/-- A handler keeps memory canonical: only PUSH writes, and inside memory. -/
theorem exec_wf {i : Instr} {s t : State} (h : exec i s = .next t) (hm : Memory.wf s.mem) :
    Memory.wf t.mem := by
  obtain heq | ⟨r, v, -, ha, heq⟩ := exec_mem h <;> rw [heq]
  · exact hm
  · exact poke_wf hm ha v

/-- What every handler keeps and the end of a step does not touch, a step keeps. -/
theorem step_keeps {P : State → Prop}
    (hP : ∀ s p e r, P { s with pc := p, state := e, fault := r } = P s) {s t : State}
    (h : step s = .next t) (hs : P s) (hexec : ∀ i u, exec i s = .next u → P u) : P t := by
  obtain heq | ⟨_, _, _, i, u, -, -, he, heq⟩ := step_field P hP h <;> rw [heq]
  · exact hs
  · exact hexec i u he

/-! ### The halt flag and HALTED -/

theorem step_haltOk {s t : State} (h : step s = .next t) (hf : t.state ≠ .faulted) : t.HaltOk := by
  have hstate := (step_state h).resolve_left hf
  unfold State.HaltOk
  cases hh : t.halt <;> simp [hstate, hh]

/-- A fetch that succeeded made the three reads. -/
theorem fetches_of_fetch {s : State} {op b1 b2 : Byte} (hs : s.state = .running) (hh : s.halt = false)
    (hf : fetch s = .ok (op, b1, b2)) : Claims.Fetches s op b1 b2 := by
  obtain ⟨hpc, rfl, rfl, rfl⟩ := fetch_ok hf
  exact ⟨hs, hh, memRead_of_lt (by omega), memRead_of_lt (by omega), memRead_of_lt hpc⟩

/-- A step that ends in HALTED decoded HLT and stands one past it (40_engine.md R111). -/
theorem step_haltedPcOk {s t : State} (hw : s.cfg.WellFormed) (hs : s.halt = false)
    (h : step s = .next t) : t.HaltedPcOk := by
  intro hstate
  have hhalt : t.halt = true := (step_haltOk h (by rw [hstate]; decide)).2 hstate
  obtain hkept | ⟨op, b1, b2, hf, hd⟩ := step_halt h
  · rw [hkept, hs] at hhalt
    cases hhalt
  · obtain ⟨hpc, hop, -, -⟩ := fetch_ok hf
    have hbyte : s.cfg.opcodes.hlt = op := (decode_opcode hd).2
    have hfetches := fetches_of_fetch (step_cases h).1 hs hf
    rw [← hbyte] at hfetches hop
    rw [step_hlt hw hfetches] at h
    cases h
    exact ⟨Nat.le_add_left 1 s.pc, show s.pc + 1 ≤ 256 by omega, hop.symm⟩

/-! ### The fault record -/

/-- The record of an error that a step can take is true to the machine. -/
theorem faultOk_raise {s : State} {e : FatalError} (he : StepError s e) : (raise e s).faultOk = true := by
  have hop : opcodeAtPc (raise e s) = opcodeAtPc s := rfl
  unfold State.faultOk
  cases e with
  | outOfBounds a =>
    have ha : 256 ≤ a := he
    simp [faultRecord, FatalError.code, FatalError.detail, hop, ha]
  | invalidRegister k =>
    have hk : 8 ≤ k := he
    simp [faultRecord, FatalError.code, FatalError.detail, hop, hk]
  | unsupportedOperation op => exact he.elim
  | unknownOpcode b =>
    obtain ⟨hp, hb, ho⟩ := he
    simp [faultRecord, FatalError.code, FatalError.detail, hop, hp, hb, ho]

/-- A machine that is not in FAULTED has no fault record. -/
theorem fault_none_of_faultOk {s : State} (hok : s.faultOk = true) (hs : s.state ≠ .faulted) :
    s.fault = none := by
  cases hf : s.fault with
  | none => rfl
  | some r => simp [State.faultOk, hf, hs] at hok

theorem faultOk_of_none {s : State} (hf : s.fault = none) (hs : s.state ≠ .faulted) :
    s.faultOk = true := by
  simp [State.faultOk, hf, hs]

/-- A handler that raises no error leaves the fault record. -/
theorem exec_fault {i : Instr} {s t : State} (h : exec i s = .next t) :
    t.fault = s.fault ∨ t.state = .faulted := by
  cases exec_effect h with
  | fails _ e he => exact .inr rfl
  | _ => exact .inl rfl

/-- A step that does not end in FAULTED leaves the fault record. -/
theorem step_fault {s t : State} (h : step s = .next t) (ht : t.state ≠ .faulted) : t.fault = s.fault := by
  cases step_outcome h with
  | raises e he heq => exact absurd (heq ▸ raise_state e s) ht
  | skips op heq => rw [heq]
  | completes op b1 b2 i u hf hd he hu heq =>
    rw [heq]
    exact (exec_fault he).resolve_right (by rw [hu]; decide)

theorem step_faultOk {s t : State} (hok : s.faultOk = true) (h : step s = .next t) :
    t.faultOk = true := by
  by_cases ht : t.state = .faulted
  · obtain ⟨e, he, rfl⟩ := step_faulted h ht
    exact faultOk_raise he
  · have hrunning : s.state ≠ .faulted := by rw [(step_cases h).1]; decide
    exact faultOk_of_none ((step_fault h ht).trans (fault_none_of_faultOk hok hrunning)) ht

/-- Under the profile every operation is supported (42_alu.md R141). -/
theorem supported_of_ext {cfg : Config} (h : cfg.aluExt = true) (op : AluOp) :
    op.supported cfg = true := by
  cases op with
  | add => rfl
  | mul => rfl
  | _ => exact h

/-! ### The obligations -/

/-- Settles O2: a constructed machine has empty memory, zero registers and flags, and is RUNNING with the halt
flag clear and no record; the parameters are well formed by assumption, or the default ones. -/
theorem constructedMachineMeetsInvariant : Obligations.ConstructedMachineMeetsInvariant := by
  have hconstruct : ∀ cfg : Config, cfg.WellFormed → (State.construct cfg).Inv := fun cfg hw => by
    refine ⟨hw, Memory.wf_nil, fun j => ?_, fun v hv => (List.not_mem_nil hv).elim, .inl rfl,
      ⟨fun h => ?_, fun h => ?_⟩, fun h => ?_, rfl⟩
    · rw [construct_x_getElem]
      exact Nat.two_pow_pos _
    · cases h
    · cases h
    · cases h
  exact ⟨hconstruct, hconstruct Config.default defaultMapMeetsConstraints.1⟩

/-- Settles O3, conjunct by conjunct: what handlers keep of memory, registers, output and flags
(`step_keeps`), the halt flag and the pc of HALTED (`step_haltOk`, `step_haltedPcOk`), and the fault record of
an error that a step can take (`step_faultOk`). -/
theorem everyStepKeepsInvariant : Obligations.EveryStepKeepsInvariant := by
  intro s t hinv h
  obtain ⟨hw, hm, hx, hout, hfl, hhalt, -, hfault⟩ := hinv
  have hclear : s.halt = false := by
    cases hh : s.halt with
    | false => rfl
    | true => exact absurd h (no_step_of_halt hhalt hh t)
  refine ⟨?_, ?_, ?_, ?_, ?_, ?_, step_haltedPcOk hw hclear h, step_faultOk hfault h⟩
  · rw [step_cfg h]
    exact hw
  · exact step_keeps (P := fun u => Memory.wf u.mem) (fun _ _ _ _ => rfl) h hm fun i u he => exec_wf he hm
  · exact step_keeps (P := State.RegsOk) (fun _ _ _ _ => rfl) h hx fun i u he => exec_regsOk he hx
  · exact step_keeps (P := State.OutOk) (fun _ _ _ _ => rfl) h hout fun i u he => exec_outOk he hx hout
  · exact step_keeps (P := State.FlagsOk) (fun _ _ _ _ => rfl) h hfl fun i u he => exec_flagsOk he hfl
  · by_cases ht : t.state = .faulted
    · obtain ⟨e, -, rfl⟩ := step_faulted h ht
      unfold State.HaltOk
      simp [hclear]
    · exact step_haltOk h ht

/-- Settles O24, from the errors a step can take (`step_faulted`) and the record of each. -/
theorem faultingStepOnlyRecordsTheFault : Obligations.FaultingStepOnlyRecordsTheFault := by
  intro s t h ht
  obtain ⟨e, he, rfl⟩ := step_faulted h ht
  refine ⟨e.code, e.detail, opcodeAtPc s, rfl, fun hpc => ?_, fun hpc => if_neg (by omega), ?_⟩
  · exact ⟨_, memRead_of_lt hpc, if_pos hpc⟩
  · cases e with
    | outOfBounds a => exact .inl ⟨a, he, rfl, rfl⟩
    | invalidRegister k => exact .inr (.inl ⟨k, he, rfl, rfl⟩)
    | unsupportedOperation op => exact he.elim
    | unknownOpcode b => exact .inr (.inr ⟨b, he.1, he.2.1, rfl, rfl⟩)

/-- Settles O27: the supported set by cases of the operation, and `UnsupportedOperation` is no error that a
step can take (`step_faulted`). -/
theorem unsupportedOperationIsUnreachable : Obligations.UnsupportedOperationIsUnreachable := by
  refine ⟨fun cfg op a b hop => ?_, fun cfg op a b hadd hmul hext => ?_, fun s op h => ?_⟩
  · have hsup : op.supported cfg = true := by
      obtain rfl | rfl | hext := hop
      · rfl
      · rfl
      · exact supported_of_ext hext op
    exact ⟨_, alu_supported hsup a b⟩
  · have hunsup : op.supported cfg = false := by
      cases op with
      | add => exact absurd rfl hadd
      | mul => exact absurd rfl hmul
      | _ => exact hext
    exact alu_unsupported hunsup a b
  · obtain ⟨e, he, heq⟩ := step_faulted h (raise_state _ s)
    rw [← raise_inj heq] at he
    exact he

/-- Settles O34: a handler that changes memory is that of PUSH (`exec_mem`), and it changes the byte at the
address it stores to. -/
theorem onlyPushWritesMemory : Obligations.OnlyPushWritesMemory := by
  intro s t a hm h hne
  obtain heq | ⟨op, b1, b2, i, u, hf, hd, he, heq⟩ := step_field State.mem (fun _ _ _ _ => rfl) h
  · exact absurd (memRead_congr heq a) hne
  · rw [memRead_congr heq] at hne
    obtain hkept | ⟨r, v, rfl, -, hpoke⟩ := exec_mem he
    · exact absurd (memRead_congr hkept a) hne
    · obtain rfl : r = b1 := by simpa [Instr.operandBytes] using operandBytes_prefix_of_decode hd
      refine ⟨op, r, b2, hf, hd, ?_⟩
      by_contra ha
      exact hne (by simp only [memRead, hpoke, peek_poke hm, if_neg ha])

/-- Settles O35: a handler that changes the output is that of PRN (`exec_out`). -/
theorem onlyPrintAppendsToOutput : Obligations.OnlyPrintAppendsToOutput := by
  intro s t h
  obtain heq | ⟨op, b1, b2, i, u, hf, hd, he, heq⟩ := step_field State.out (fun _ _ _ _ => rfl) h
  · exact .inl heq
  · obtain hkept | ⟨r, hr, rfl, hout⟩ := exec_out he
    · exact .inl (heq.trans hkept)
    · obtain rfl : r = b1 := by simpa [Instr.operandBytes] using operandBytes_prefix_of_decode hd
      exact .inr ⟨op, r, b2, hr, hf, hd, heq.trans hout⟩

end Sys2Proof.Machine

/-! ## Where the pc comes from (10_state.md section 3, 40_engine.md R104) -/

namespace Sys2Proof.Machine

/-- The instructions of the opcodes that set the pc are the jumps. -/
theorem jumpForm_of_isJump {i : Instr} (h : i.opcode.isJump = true) (s : State) :
    ∃ taken r, jumpForm s i = some (taken, r) := by
  cases i with
  | jmp r => exact ⟨_, _, rfl⟩
  | jeq r => exact ⟨_, _, rfl⟩
  | jne r => exact ⟨_, _, rfl⟩
  | _ => cases h

theorem exec_jump_falls {i : Instr} {r : Byte} {s : State} (hi : jumpForm s i = some (false, r)) :
    exec i s = .next { s with pc := s.pc + 2 } := by
  rw [exec_jump hi]
  rfl

/-- A jump whose handler raised no error wrote the pc, taken or not. -/
theorem jump_pc {i : Instr} {taken : Bool} {r : Byte} {s t : State}
    (hi : jumpForm s i = some (taken, r)) (h : exec i s = .next t) (ht : t.state ≠ .faulted) :
    (∃ hr : r.toNat < 8, t.pc = s.x[r.toNat]) ∨ t.pc = s.pc + 2 := by
  cases taken with
  | false =>
    rw [exec_jump_falls hi] at h
    cases h
    exact .inr rfl
  | true =>
    by_cases hr : r.toNat < 8
    · rw [exec_jump_taken_ok hi hr] at h
      cases h
      exact .inl ⟨hr, rfl⟩
    · rw [exec_jump_taken_invalid hi (by omega)] at h
      cases h
      exact absurd rfl ht

/-- Settles O17: the end of a step computed (`endStep_of_ne_faulted`), the bits of the default map, and the pc
after a jump (`jump_pc`). -/
theorem engineAdvancesUnlessOpcodeSetsPc : Obligations.EngineAdvancesUnlessOpcodeSetsPc := by
  refine ⟨fun s t op b1 b2 i h hd he ht => ?_, fun o => ?_, fun s t r i hi he ht _ => ?_⟩
  · obtain ⟨hs, -, h0, h1, h2⟩ := h
    refine ⟨_, step_instr hs (fetch_of_reads h0 h1 h2) hd he, fun hsets => ?_, fun hsets => ?_⟩ <;>
      rw [endStep_of_ne_faulted ht, hsets] <;> rfl
  · cases o <;> decide
  · obtain rfl | rfl | rfl := hi
    · exact jump_pc (taken := true) rfl he ht
    · exact jump_pc (taken := flagE s.fl) rfl he ht
    · exact jump_pc (taken := !flagE s.fl) rfl he ht

/-- Settles O37: an error leaves the pc, an opcode that does not set the pc moves it by the decoded size, at
most 4, and one that does is a jump (`jump_pc`). -/
theorem programCounterSources : Obligations.ProgramCounterSources := by
  intro s t hw h
  obtain ⟨-, -, -, -, hjump, hadv⟩ := hw
  have hmove (op : Byte) : ∃ k, 1 ≤ k ∧ k ≤ 4 ∧ s.pc + operandCount op + 1 = s.pc + k :=
    ⟨operandCount op + 1, by omega, Nat.succ_le_succ (operandCount_le_three op), by omega⟩
  cases step_outcome h with
  | raises e he ht => exact .inl ⟨by rw [ht, raise_state], by rw [ht, raise_pc]⟩
  | skips op ht =>
    rw [ht]
    exact .inr (.inl (hmove op))
  | completes op b1 b2 i u hf hd he hu ht =>
    obtain ⟨hactive, hop⟩ := decode_opcode hd
    have hsets : setsPc op = i.opcode.isJump := hop ▸ setsPc_byteOf hjump hadv hactive
    rw [ht]
    cases hj : i.opcode.isJump with
    | false =>
      rw [hj] at hsets
      refine .inr (.inl ?_)
      simpa only [hsets, Bool.false_eq_true, if_false] using hmove op
    | true =>
      rw [hj] at hsets
      obtain ⟨taken, r, hi⟩ := jumpForm_of_isJump hj s
      simp only [hsets, if_true]
      obtain ⟨hr, hpc⟩ | hpc := jump_pc hi he (by rw [hu]; decide)
      · exact .inr (.inr ⟨r.toNat, hr, hpc⟩)
      · exact .inr (.inl ⟨2, by decide, by decide, hpc⟩)

end Sys2Proof.Machine

/-! ## The causes of the errors (60_exceptions.md sections 2 and 3) -/

namespace Sys2Proof.Machine

open Sys2Proof.Claims

/-! ### OutOfBounds -/

theorem pushAddress_lt (s : State) : pushAddress s < 2 ^ s.cfg.wordBits := wrap_lt _ _

/-- The error in a handler's outcome is one the handler can raise. -/
theorem handlerError_of_raise {i : Instr} {s : State} {e : FatalError} (hs : s.state = .running)
    (h : exec i s = .next (raise e s)) : HandlerError i s e := by
  obtain ⟨e', he, heq⟩ := exec_faulted h (by rw [hs]; decide) (raise_state e s)
  rwa [raise_inj heq]

/-- Settles O25, from the cases of PUSH, POP and the fetch, and the errors a handler can raise
(`handlerError_of_raise`). -/
theorem outOfBoundsCauses : Obligations.OutOfBoundsCauses := by
  refine ⟨fun a => ⟨rfl, rfl⟩, fun s => step_fetch_outside,
    fun s r => ⟨rfl, fun ha hr => exec_push_outside hr ha, exec_pop_outside, fun hx hw => ?_⟩,
    fun s i a hs h => handlerError_of_raise hs h,
    fun s bytes start hover => ⟨_, Nat.le_max_right _ _, loadProgram_overflows hover s⟩⟩
  have hpush := pushAddress_lt s
  have hsp := hx 7
  rw [hw] at hpush hsp
  exact ⟨hpush, hsp⟩

/-! ### InvalidRegister -/

theorem find?_ge_eight_one {r k : Nat} :
    [r].find? (fun j => decide (8 ≤ j)) = some k ↔ 8 ≤ r ∧ r = k := by
  by_cases hr : 8 ≤ r <;> simp [hr]

theorem find?_ge_eight_two {a b k : Nat} :
    [a, b].find? (fun j => decide (8 ≤ j)) = some k ↔ 8 ≤ a ∧ a = k ∨ a < 8 ∧ 8 ≤ b ∧ b = k := by
  by_cases ha : 8 ≤ a
  · simp [ha]
  · by_cases hb : 8 ≤ b <;> simp [ha, hb, Nat.lt_of_not_le ha]

theorem checked_aluTwo {i : Instr} {op : AluOp} {a b : Byte} (hi : aluTwoForm i = some (op, a, b))
    (fl : BitVec 8) : checked fl i = [a.toNat, b.toNat] := by
  cases i <;> cases hi <;> rfl

/-- A jump checks its register when it is taken. -/
theorem checked_jump {i : Instr} {taken : Bool} {r : Byte} {s : State}
    (hi : jumpForm s i = some (taken, r)) : checked s.fl i = if taken then [r.toNat] else [] := by
  cases i <;> cases hi
  · rfl
  · rfl
  · cases h : flagE s.fl <;> simp [checked, h]

theorem aluTwo_raises {i : Instr} {op : AluOp} {a b : Byte} (hi : aluTwoForm i = some (op, a, b))
    {s : State} {k : Nat} (h : (checked s.fl i).find? (fun j => decide (8 ≤ j)) = some k) :
    exec i s = .next (raise (.invalidRegister k) s) := by
  rw [checked_aluTwo hi, find?_ge_eight_two] at h
  obtain ⟨ha, rfl⟩ | ⟨ha, hb, rfl⟩ := h
  · exact exec_aluTwo_left hi ha
  · exact exec_aluTwo_right hi ha hb

theorem jump_raises {i : Instr} {taken : Bool} {r : Byte} {s : State}
    (hi : jumpForm s i = some (taken, r)) {k : Nat}
    (h : (checked s.fl i).find? (fun j => decide (8 ≤ j)) = some k) :
    exec i s = .next (raise (.invalidRegister k) s) := by
  rw [checked_jump hi] at h
  cases taken with
  | false => cases h
  | true =>
    obtain ⟨hr, rfl⟩ := find?_ge_eight_one.1 h
    exact exec_jump_taken_invalid hi hr

theorem exec_not_invalid {r : Byte} {s : State} (hr : 8 ≤ r.toNat) :
    exec (.not r) s = .next (raise (.invalidRegister r.toNat) s) := by
  rw [exec, execNot, aluOne_invalid hr, commit_error]

/-- A handler raises `InvalidRegister` for the first bad index among those it checks. -/
theorem exec_raises_first_invalid {i : Instr} {s : State} {k : Nat}
    (h : (checked s.fl i).find? (fun j => decide (8 ≤ j)) = some k) (hpop : ∀ r, i = .pop r → sp s < 256) :
    exec i s = .next (raise (.invalidRegister k) s) := by
  cases i with
  | hlt => cases h
  | push r =>
    obtain ⟨hr, rfl⟩ := find?_ge_eight_one.1 h
    exact exec_push_invalid hr
  | pop r =>
    obtain ⟨hr, rfl⟩ := find?_ge_eight_one.1 h
    exact exec_pop_invalid hr (hpop r rfl)
  | prn r =>
    obtain ⟨hr, rfl⟩ := find?_ge_eight_one.1 h
    exact exec_prn_invalid hr
  | ldi r v =>
    obtain ⟨hr, rfl⟩ := find?_ge_eight_one.1 h
    exact exec_ldi_invalid hr
  | not r =>
    obtain ⟨hr, rfl⟩ := find?_ge_eight_one.1 h
    exact exec_not_invalid hr
  | cmp a b =>
    obtain ⟨ha, rfl⟩ | ⟨ha, hb, rfl⟩ := find?_ge_eight_two.1 h
    · exact exec_cmp_left ha
    · exact exec_cmp_right ha hb
  | jmp r => exact jump_raises rfl h
  | jeq r => exact jump_raises rfl h
  | jne r => exact jump_raises rfl h
  | mul a b => exact aluTwo_raises rfl h
  | add a b => exact aluTwo_raises rfl h
  | sub a b => exact aluTwo_raises rfl h
  | and a b => exact aluTwo_raises rfl h
  | or a b => exact aluTwo_raises rfl h
  | xor a b => exact aluTwo_raises rfl h
  | shl a b => exact aluTwo_raises rfl h
  | shr a b => exact aluTwo_raises rfl h

/-! #### A handler that checks no bad index -/

/-- A handler that left the engine running raised no error. -/
theorem exec_ne_raise {i : Instr} {s t : State} (h : exec i s = .next t) (ht : t.state = .running)
    (e : FatalError) : exec i s ≠ .next (raise e s) := by
  intro hraise
  rw [h] at hraise
  cases hraise
  cases ht

/-- A handler raises one error. -/
theorem exec_raise_ne {i : Instr} {s : State} {e e' : FatalError} (h : exec i s = .next (raise e s))
    (hne : e ≠ e') : exec i s ≠ .next (raise e' s) := by
  rw [h]
  exact fun heq => hne (raise_inj (Host.Outcome.next.inj heq))

theorem aluTwo_valid {i : Instr} {op : AluOp} {a b : Byte} (hi : aluTwoForm i = some (op, a, b))
    {s : State} (hs : s.state = .running) (h : ∀ j ∈ checked s.fl i, j < 8) (k : Nat) :
    exec i s ≠ .next (raise (.invalidRegister k) s) := by
  rw [checked_aluTwo hi] at h
  have ha : a.toNat < 8 := h _ (by simp)
  have hb : b.toNat < 8 := h _ (by simp)
  have he := exec_aluTwo hi s
  cases hsup : op.supported s.cfg with
  | true =>
    rw [aluTwo_ok ha hb hsup] at he
    exact exec_ne_raise he hs _
  | false =>
    rw [aluTwo_unsupported ha hb hsup] at he
    exact exec_raise_ne he nofun

theorem jump_valid {i : Instr} {taken : Bool} {r : Byte} {s : State}
    (hi : jumpForm s i = some (taken, r)) (hs : s.state = .running)
    (h : ∀ j ∈ checked s.fl i, j < 8) (k : Nat) :
    exec i s ≠ .next (raise (.invalidRegister k) s) := by
  rw [checked_jump hi] at h
  cases taken with
  | false => exact exec_ne_raise (exec_jump_falls hi) hs _
  | true => exact exec_ne_raise (exec_jump_taken_ok hi (h _ (by simp))) hs _

theorem not_valid {r : Byte} {s : State} (hs : s.state = .running) (hr : r.toNat < 8) (k : Nat) :
    exec (.not r) s ≠ .next (raise (.invalidRegister k) s) := by
  have he : exec (.not r) s = commit s (aluOne .not r s) := rfl
  cases hsup : AluOp.not.supported s.cfg with
  | true =>
    rw [aluOne_ok hr hsup] at he
    exact exec_ne_raise he hs _
  | false =>
    rw [aluOne_unsupported hr hsup] at he
    exact exec_raise_ne he nofun

theorem push_valid {r : Byte} {s : State} (hs : s.state = .running) (hr : r.toNat < 8) (k : Nat) :
    exec (.push r) s ≠ .next (raise (.invalidRegister k) s) := by
  by_cases ha : pushAddress s < 256
  · exact exec_ne_raise (exec_push_ok hr ha) hs _
  · exact exec_raise_ne (exec_push_outside hr (by omega)) nofun

theorem pop_valid {r : Byte} {s : State} (hs : s.state = .running) (hr : r.toNat < 8) (k : Nat) :
    exec (.pop r) s ≠ .next (raise (.invalidRegister k) s) := by
  by_cases ha : sp s < 256
  · exact exec_ne_raise (exec_pop_ok hr ha) hs _
  · exact exec_raise_ne (exec_pop_outside (by omega)) nofun

theorem exec_valid {i : Instr} {s : State} (hs : s.state = .running)
    (h : ∀ j ∈ checked s.fl i, j < 8) (k : Nat) : exec i s ≠ .next (raise (.invalidRegister k) s) := by
  cases i with
  | hlt => exact exec_ne_raise (exec_hlt s) hs _
  | push r => exact push_valid hs (h _ (List.mem_singleton_self _)) k
  | pop r => exact pop_valid hs (h _ (List.mem_singleton_self _)) k
  | prn r => exact exec_ne_raise (exec_prn_ok (h _ (List.mem_singleton_self _))) hs _
  | ldi r v => exact exec_ne_raise (exec_ldi_ok (h _ (List.mem_singleton_self _))) hs _
  | not r => exact not_valid hs (h _ (List.mem_singleton_self _)) k
  | cmp a b =>
    exact exec_ne_raise (exec_cmp_ok (h _ List.mem_cons_self) (h _ (.tail _ List.mem_cons_self))) hs _
  | jmp r => exact jump_valid rfl hs h k
  | jeq r => exact jump_valid rfl hs h k
  | jne r => exact jump_valid rfl hs h k
  | mul a b => exact aluTwo_valid rfl hs h k
  | add a b => exact aluTwo_valid rfl hs h k
  | sub a b => exact aluTwo_valid rfl hs h k
  | and a b => exact aluTwo_valid rfl hs h k
  | or a b => exact aluTwo_valid rfl hs h k
  | xor a b => exact aluTwo_valid rfl hs h k
  | shl a b => exact aluTwo_valid rfl hs h k
  | shr a b => exact aluTwo_valid rfl hs h k

/-- The converse of `exec_raises_first_invalid`: with no bad index nothing of the kind is raised, and a bad one
that is not the first is not what is raised. POP outside memory does not come to its index. -/
theorem first_invalid_of_exec {i : Instr} {s : State} {k : Nat} (hs : s.state = .running)
    (h : exec i s = .next (raise (.invalidRegister k) s)) :
    (checked s.fl i).find? (fun j => decide (8 ≤ j)) = some k := by
  have hpop : ∀ r, i = .pop r → sp s < 256 := by
    rintro r rfl
    by_contra hsp
    have hout := exec_pop_outside (r := r) (Nat.le_of_not_lt hsp)
    exact absurd h (exec_raise_ne hout nofun)
  cases hfind : (checked s.fl i).find? (fun j => decide (8 ≤ j)) with
  | some j =>
    by_contra hne
    exact exec_raise_ne (exec_raises_first_invalid hfind hpop) (by simpa using hne) h
  | none =>
    have hvalid : ∀ j ∈ checked s.fl i, j < 8 := by simpa using hfind
    exact absurd h (exec_valid hs hvalid k)

/-- A step on an unknown opcode moves the pc or raises `UnknownOpcode`, so it raises no other error. -/
theorem step_unknown_ne_invalid {s : State} {op b1 b2 : Byte} (h : Fetches s op b1 b2)
    (hd : decode s.cfg op b1 b2 = .error (.unknownOpcode op)) (k : Nat) :
    step s ≠ .next (raise (.invalidRegister k) s) := by
  intro hstep
  cases hp : s.cfg.unknownOpcode with
  | noop =>
    rw [step_unknown_noop h hd hp] at hstep
    have hstate : s.state = .faulted := congrArg State.state (Host.Outcome.next.inj hstep)
    rw [h.1] at hstate
    cases hstate
  | fault =>
    rw [step_unknown_fault h hd hp] at hstep
    cases raise_inj (Host.Outcome.next.inj hstep)

/-- Settles O26: the first bad index is raised (`exec_raises_first_invalid`), nothing else is
(`first_invalid_of_exec`), and an unknown opcode raises no such error. -/
theorem invalidRegisterCauses : Obligations.InvalidRegisterCauses :=
  ⟨fun _ => ⟨rfl, rfl⟩, fun _ _ _ => exec_raises_first_invalid, fun _ _ _ => first_invalid_of_exec,
    fun _ _ _ _ k h hd => step_unknown_ne_invalid h hd k⟩

end Sys2Proof.Machine

/-! ## Which registers and flags an instruction writes and reads (10_state.md sections 2 and 4) -/

namespace Sys2Proof.Machine

open Sys2Proof.Claims

/-! ### Register writes -/

/-- Settles O30, from the two cases of a register write and the arithmetic of the wrapping stack pointer. -/
theorem registerWriteReducesModulo : Obligations.RegisterWriteReducesModulo := by
  intro s t i v h
  by_cases hi : i.toNat < 8
  case neg =>
    rw [writeReg_of_ge (by omega)] at h
    cases h
  case pos =>
    rw [writeReg_of_lt hi] at h
    cases h
    refine ⟨rfl, ?_, fun j hj => ?_, rfl, rfl, fun hsp => ?_, fun hsp => ?_⟩
    · rw [readReg_of_lt hi, Vector.getElem_set_self, wrap]
    · by_cases hj8 : j.toNat < 8
      · have hne : i.toNat ≠ j.toNat := fun heq => hj (BitVec.eq_of_toNat_eq heq.symm)
        rw [readReg_of_lt hj8, readReg_of_lt hj8, Vector.getElem_set_ne hi hj8 hne]
      · rw [readReg_of_ge (by omega), readReg_of_ge (by omega)]
    · have hpos := Nat.two_pow_pos s.cfg.wordBits
      rw [pushAddress, sp, hsp, Nat.zero_add, wrap_of_lt (Nat.sub_lt hpos Nat.one_pos)]
    · rw [sp, setSp_x, Vector.getElem_set_self, sp, hsp, Nat.sub_add_cancel Nat.one_le_two_pow, wrap,
        Nat.mod_self]

theorem writes_aluTwo {i : Instr} {op : AluOp} {a b : Byte} (hi : aluTwoForm i = some (op, a, b)) :
    writes i = [a.toNat] := by
  cases i <;> cases hi <;> rfl

theorem reads_aluTwo {i : Instr} {op : AluOp} {a b : Byte} (hi : aluTwoForm i = some (op, a, b))
    (fl : BitVec 8) : reads fl i = [a.toNat, b.toNat] := by
  cases i <;> cases hi <;> rfl

/-- A jump reads its register when it is taken. -/
theorem reads_jump {i : Instr} {taken : Bool} {r : Byte} {s : State}
    (hi : jumpForm s i = some (taken, r)) : reads s.fl i = if taken then [r.toNat] else [] := by
  cases i <;> cases hi
  · rfl
  · rfl
  · cases h : flagE s.fl <;> simp [reads, h]

/-- Settles O31, by the cases of what a handler can do: every register update is at a listed index. -/
theorem registerWritesFollowTheTable : Obligations.RegisterWritesFollowTheTable := by
  intro i s t h j hj hnot
  cases exec_effect h with
  | fails _ e he => rfl
  | halts => rfl
  | loads r v hr => exact Vector.getElem_set_ne hr hj (List.ne_of_not_mem_cons hnot).symm
  | prints r hr => rfl
  | computes _ op a b ha hb hi =>
    rw [writes_aluTwo hi] at hnot
    exact Vector.getElem_set_ne ha hj (List.ne_of_not_mem_cons hnot).symm
  | complements r hr => exact Vector.getElem_set_ne hr hj (List.ne_of_not_mem_cons hnot).symm
  | pushes r hr ha => exact Vector.getElem_set_ne (by decide) hj (List.ne_of_not_mem_cons hnot).symm
  | pops r hr ha =>
    have hr' : r.toNat ≠ j := (List.ne_of_not_mem_cons (List.not_mem_of_not_mem_cons hnot)).symm
    exact (Vector.getElem_set_ne (by decide) hj (List.ne_of_not_mem_cons hnot).symm).trans
      (Vector.getElem_set_ne hr hj hr')
  | compares a b ha hb => rfl
  | jumps _ r hr hi => rfl
  | falls _ r hi => rfl

/-! ### Changes of the state that a handler does not see -/

/-- A change `f` of the state that is not seen by what uses only the registers in `R`, and the pc, memory and
parameters: it leaves them, and it commutes with every update but that of the flags. -/
structure Unseen (R : Nat → Prop) (f : State → State) : Prop where
  cfg : ∀ s, (f s).cfg = s.cfg
  mem : ∀ s, (f s).mem = s.mem
  pc : ∀ s, (f s).pc = s.pc
  readReg : ∀ s r, R r.toNat → readReg (f s) r = readReg s r
  writeReg : ∀ s r v, R r.toNat → writeReg (f s) r v = (writeReg s r v).map f
  memWrite : ∀ s a v, memWrite (f s) a v = (memWrite s a v).map f
  setPc : ∀ s p, setPc (f s) p = f (setPc s p)
  setHalt : ∀ s, setHalt (f s) = f (setHalt s)
  emit : ∀ s v, emit (f s) v = f (emit s v)
  raise : ∀ s e, raise e (f s) = f (raise e s)

section
variable {R : Nat → Prop} {f : State → State} (hf : Unseen R f)
include hf

theorem sp_unseen (h7 : R 7) (s : State) : sp (f s) = sp s :=
  Except.ok.inj (hf.readReg s 7#8 h7)

theorem setSp_unseen (h7 : R 7) (s : State) (v : Nat) : setSp (f s) v = f (setSp s v) :=
  Except.ok.inj (hf.writeReg s 7#8 v h7)

theorem pushAddress_unseen (h7 : R 7) (s : State) : pushAddress (f s) = pushAddress s := by
  rw [pushAddress, sp_unseen hf h7, hf.cfg, pushAddress]

/-- A handler whose outcome commutes with the change answers the changed state. -/
theorem commit_unseen {s t : State} {o o' : Except FatalError State} (ho : o' = o.map f)
    (h : commit s o = .next t) : commit (f s) o' = .next (f t) := by
  subst ho
  cases o with
  | ok u =>
    cases h
    rfl
  | error e =>
    cases h
    exact congrArg Host.Outcome.next (hf.raise s e)

theorem aluTwo_unseen {a b : Byte} (ha : R a.toNat) (hb : R b.toNat) (op : AluOp) (s : State) :
    aluTwo op a b (f s) = (aluTwo op a b s).map f := by
  simp only [aluTwo, hf.readReg _ _ ha, hf.readReg _ _ hb, hf.writeReg _ _ _ ha, hf.cfg, bind, Except.bind]
  cases readReg s a with
  | error e => rfl
  | ok u =>
    cases readReg s b with
    | error e => rfl
    | ok v =>
      dsimp only
      cases alu s.cfg op u v <;> rfl

theorem aluOne_unseen {r : Byte} (hr : R r.toNat) (op : AluOp) (s : State) :
    aluOne op r (f s) = (aluOne op r s).map f := by
  simp only [aluOne, hf.readReg _ _ hr, hf.writeReg _ _ _ hr, hf.cfg, bind, Except.bind]
  cases readReg s r with
  | error e => rfl
  | ok u =>
    dsimp only
    cases alu s.cfg op u 0 <;> rfl

theorem jumpIf_unseen {taken : Bool} {r : Byte} (hr : taken = true → R r.toNat) (s : State) :
    jumpIf taken r (f s) = (jumpIf taken r s).map f := by
  cases taken with
  | false => exact congrArg Except.ok (by rw [hf.pc, hf.setPc])
  | true =>
    simp only [jumpIf, jumpTo, if_true, hf.readReg _ _ (hr rfl), hf.setPc, bind, Except.bind]
    cases readReg s r <;> rfl

theorem execJump_unseen {i : Instr} {taken : Bool} {r : Byte} {s t : State}
    (hi : jumpForm s i = some (taken, r)) (hi' : jumpForm (f s) i = some (taken, r))
    (hR : ∀ k ∈ reads s.fl i, R k) (h : exec i s = .next t) : exec i (f s) = .next (f t) := by
  rw [exec_jump hi] at h
  rw [exec_jump hi']
  refine commit_unseen hf (jumpIf_unseen hf (fun htaken => ?_) s) h
  rw [reads_jump hi, htaken] at hR
  exact hR _ (List.mem_singleton_self _)

theorem execPush_unseen {r : Byte} (h7 : R 7) (hr : R r.toNat) {s t : State}
    (h : execPush r s = .next t) : execPush r (f s) = .next (f t) := by
  refine commit_unseen hf ?_ h
  simp only [pushAddress_unseen hf h7, setSp_unseen hf h7, hf.readReg _ _ hr, hf.memWrite, bind, Except.bind]
  cases readReg (setSp s (pushAddress s)) r <;> rfl

theorem execPop_unseen {r : Byte} (h7 : R 7) (hr : R r.toNat) {s t : State}
    (h : execPop r s = .next t) : execPop r (f s) = .next (f t) := by
  refine commit_unseen hf ?_ h
  simp only [sp_unseen hf h7, memRead_congr (hf.mem s), hf.writeReg _ _ _ hr, bind, Except.bind]
  cases memRead s (sp s) with
  | error e => rfl
  | ok b =>
    dsimp only
    cases writeReg s r (zext b) with
    | error e => rfl
    | ok t => exact congrArg Except.ok (by rw [sp_unseen hf h7, setSp_unseen hf h7])

theorem execPrn_unseen {r : Byte} (hr : R r.toNat) {s t : State} (h : execPrn r s = .next t) :
    execPrn r (f s) = .next (f t) := by
  refine commit_unseen hf ?_ h
  simp only [hf.readReg _ _ hr, hf.emit, bind, Except.bind]
  cases readReg s r <;> rfl

/-- An instruction other than CMP answers the same up to a change that its registers do not show and that
keeps E. -/
theorem exec_unseen {i : Instr} {s t : State} (hi : ∀ a b, i ≠ .cmp a b)
    (hE : flagE (f s).fl = flagE s.fl) (hreads : ∀ k ∈ reads s.fl i, R k) (hwrites : ∀ k ∈ writes i, R k)
    (h : exec i s = .next t) : exec i (f s) = .next (f t) := by
  have htwo {op : AluOp} {a b : Byte} (hform : aluTwoForm i = some (op, a, b)) :
      exec i (f s) = .next (f t) := by
    rw [reads_aluTwo hform] at hreads
    rw [exec_aluTwo hform] at h ⊢
    exact commit_unseen hf (aluTwo_unseen hf (hreads _ (by simp)) (hreads _ (by simp)) op s) h
  cases i with
  | hlt =>
    rw [exec_hlt] at h ⊢
    cases h
    rw [hf.setHalt]
  | push r => exact execPush_unseen hf (hreads 7 (by simp [reads])) (hreads r.toNat (by simp [reads])) h
  | pop r => exact execPop_unseen hf (hwrites 7 (by simp [writes])) (hwrites r.toNat (by simp [writes])) h
  | prn r => exact execPrn_unseen hf (hreads r.toNat (by simp [reads])) h
  | jmp r => exact execJump_unseen hf rfl rfl hreads h
  | jeq r => exact execJump_unseen hf rfl (by rw [jumpForm, hE]) hreads h
  | jne r => exact execJump_unseen hf rfl (by rw [jumpForm, hE]) hreads h
  | ldi r v => exact commit_unseen hf (hf.writeReg s r _ (hwrites r.toNat (by simp [writes]))) h
  | not r => exact commit_unseen hf (aluOne_unseen hf (hreads r.toNat (by simp [reads])) .not s) h
  | cmp a b => exact absurd rfl (hi a b)
  | mul a b => exact htwo rfl
  | add a b => exact htwo rfl
  | sub a b => exact htwo rfl
  | and a b => exact htwo rfl
  | or a b => exact htwo rfl
  | xor a b => exact htwo rfl
  | shl a b => exact htwo rfl
  | shr a b => exact htwo rfl

end

/-! ### Changing a register -/

/-- The state with one register replaced by any number. -/
def withReg (j v : Nat) (hj : j < 8) (s : State) : State := { s with x := s.x.set j v }

/-- A register is not seen by what uses only the others. -/
theorem unseen_withReg (j v : Nat) (hj : j < 8) : Unseen (· ≠ j) (withReg j v hj) where
  cfg _ := rfl
  mem _ := rfl
  pc _ := rfl
  readReg s r hr := by
    by_cases h : r.toNat < 8
    · rw [readReg_of_lt h, readReg_of_lt h, withReg, Vector.getElem_set_ne hj h hr.symm]
    · rw [readReg_of_ge (by omega), readReg_of_ge (by omega)]
  writeReg s r u hr := by
    by_cases h : r.toNat < 8
    · rw [writeReg_of_lt h, writeReg_of_lt h, withReg, Vector.set_comm _ _ hr.symm]
      rfl
    · rw [writeReg_of_ge (by omega), writeReg_of_ge (by omega)]
      rfl
  memWrite s a u := by
    by_cases h : a < 256
    · rw [memWrite_of_lt h, memWrite_of_lt h]
      rfl
    · rw [memWrite_of_ge (by omega), memWrite_of_ge (by omega)]
      rfl
  setPc _ _ := rfl
  setHalt _ := rfl
  emit _ _ := rfl
  raise _ _ := rfl

/-- CMP answers the same up to a register that it does not compare. -/
theorem exec_cmp_withReg {a b : Byte} {s t : State} {j v : Nat} {hj : j < 8} (ha : a.toNat ≠ j)
    (hb : b.toNat ≠ j) (h : exec (.cmp a b) s = .next t) :
    exec (.cmp a b) (withReg j v hj s) = .next (withReg j v hj t) := by
  refine commit_unseen (unseen_withReg j v hj) ?_ h
  simp only [(unseen_withReg j v hj).readReg _ _ ha, (unseen_withReg j v hj).readReg _ _ hb, bind, Except.bind]
  cases readReg s a with
  | error e => rfl
  | ok u => cases readReg s b <;> rfl

/-- Settles O32: a register that is neither read nor written is not seen (`exec_unseen`, `exec_cmp_withReg`),
and LDI overwrites its register. -/
theorem unreadRegistersDoNotMatter : Obligations.UnreadRegistersDoNotMatter := by
  refine ⟨fun i s t j v hj hreads hwrites h => ?_, fun s r v w hr => ?_⟩
  · have hne {l : List Nat} (hl : j ∉ l) : ∀ k ∈ l, k ≠ j := fun k hk heq => hl (heq ▸ hk)
    by_cases hcmp : ∃ a b, i = .cmp a b
    · obtain ⟨a, b, rfl⟩ := hcmp
      exact exec_cmp_withReg (hne hreads _ (by simp [reads])) (hne hreads _ (by simp [reads])) h
    · exact exec_unseen (unseen_withReg j v hj) (fun a b heq => hcmp ⟨a, b, heq⟩) rfl (hne hreads)
        (hne hwrites) h
  · rw [exec_ldi_ok hr, exec_ldi_ok hr, Vector.set_set]

/-! ### The flags -/

@[simp] theorem flagL_packFlags (l e g : Bool) : flagL (packFlags l e g) = l := by
  cases l <;> cases e <;> cases g <;> rfl

@[simp] theorem flagE_packFlags (l e g : Bool) : flagE (packFlags l e g) = e := by
  cases l <;> cases e <;> cases g <;> rfl

@[simp] theorem flagG_packFlags (l e g : Bool) : flagG (packFlags l e g) = g := by
  cases l <;> cases e <;> cases g <;> rfl

theorem flagL_compareFlags (u v : Nat) : flagL (compareFlags u v) = decide (u < v) := flagL_packFlags _ _ _

theorem flagE_compareFlags (u v : Nat) : flagE (compareFlags u v) = decide (u = v) := flagE_packFlags _ _ _

theorem flagG_compareFlags (u v : Nat) : flagG (compareFlags u v) = decide (u > v) := flagG_packFlags _ _ _

/-- Exactly one flag is set after a comparison (10_state.md R32). -/
theorem compareFlags_exclusive (u v : Nat) :
    (flagL (compareFlags u v)).toNat + (flagE (compareFlags u v)).toNat +
      (flagG (compareFlags u v)).toNat = 1 := by
  obtain h | h | h := compareFlags_legal u v <;> rw [h] <;> decide

/-- The state with the flags register replaced. -/
def withFlags (g : BitVec 8) (s : State) : State := { s with fl := g }

/-- The flags are not seen by an instruction that reads only E of them. -/
theorem unseen_withFlags (g : BitVec 8) : Unseen (fun _ => True) (withFlags g) where
  cfg _ := rfl
  mem _ := rfl
  pc _ := rfl
  readReg _ _ _ := rfl
  writeReg s r u _ := by
    unfold writeReg
    split <;> rfl
  memWrite s a u := by
    unfold memWrite
    split <;> rfl
  setPc _ _ := rfl
  setHalt _ := rfl
  emit _ _ := rfl
  raise _ _ := rfl

/-- CMP answers the same whatever the flags are, up to the flags themselves. -/
theorem exec_cmp_withFlags {a b : Byte} {s t : State} (g : BitVec 8) (h : exec (.cmp a b) s = .next t) :
    ∃ u, exec (.cmp a b) (withFlags g s) = .next u ∧ { u with fl := 0#8 } = { t with fl := 0#8 } := by
  by_cases ha : a.toNat < 8
  · by_cases hb : b.toNat < 8
    · rw [exec_cmp_ok ha hb] at h
      cases h
      exact ⟨_, exec_cmp_ok (s := withFlags g s) ha hb, rfl⟩
    · rw [exec_cmp_right ha (by omega)] at h
      cases h
      exact ⟨_, exec_cmp_right ha (by omega), rfl⟩
  · rw [exec_cmp_left (by omega)] at h
    cases h
    exact ⟨_, exec_cmp_left (by omega), rfl⟩

/-- JEQ goes to its register or falls through by E alone. -/
theorem exec_jeq_ok {r : Byte} {s : State} (hr : r.toNat < 8) :
    exec (.jeq r) s = .next { s with pc := if flagE s.fl = true then s.x[r.toNat] else s.pc + 2 } := by
  cases hE : flagE s.fl with
  | true => exact exec_jump_taken_ok (by rw [jumpForm, hE]) hr
  | false => exact exec_jump_falls (r := r) (by rw [jumpForm, hE])

/-- JNE goes to its register or falls through by E alone. -/
theorem exec_jne_ok {r : Byte} {s : State} (hr : r.toNat < 8) :
    exec (.jne r) s = .next { s with pc := if flagE s.fl = true then s.pc + 2 else s.x[r.toNat] } := by
  cases hE : flagE s.fl with
  | true => exact exec_jump_falls (r := r) (by rw [jumpForm, hE]; rfl)
  | false => exact exec_jump_taken_ok (by rw [jumpForm, hE]; rfl) hr

/-- Settles O33: what a handler does to the flags (`exec_fl`), what CMP makes of them, and that the other
instructions see E alone of them (`exec_unseen` for `withFlags`). -/
theorem onlyCompareWritesFlags : Obligations.OnlyCompareWritesFlags := by
  refine ⟨fun i s t h hne => ?_, fun s t h hne => ?_, fun s a b g ha hb => ?_,
    fun cfg => ⟨construct_flagL cfg, construct_flagE cfg, construct_flagG cfg⟩,
    fun i s t g hE h => ?_, fun s r hr => ⟨exec_jeq_ok hr, exec_jne_ok hr⟩⟩
  · obtain heq | ⟨a, b, -, -, hi, -⟩ := exec_fl h
    · exact heq
    · exact absurd hi (hne a b)
  · obtain heq | ⟨op, b1, b2, i, u, hf, hd, he, heq⟩ := step_field State.fl (fun _ _ _ _ => rfl) h
    · exact absurd heq hne
    · obtain hkept | ⟨a, b, -, -, rfl, -⟩ := exec_fl he
      · exact absurd (heq.trans hkept) hne
      · obtain ⟨rfl, rfl⟩ : a = b1 ∧ b = b2 := by
          simpa [Instr.operandBytes] using operandBytes_prefix_of_decode hd
        exact ⟨op, a, b, hf, hd⟩
  · refine ⟨_, exec_cmp_ok ha hb, exec_cmp_ok (s := withFlags g s) ha hb, ?_⟩
    rw [setFlags_fl]
    refine ⟨?_, ?_, ?_, compareFlags_exclusive _ _⟩
    · rw [flagL_compareFlags, decide_eq_true_iff]
    · rw [flagE_compareFlags, decide_eq_true_iff]
    · rw [flagG_compareFlags, decide_eq_true_iff]
  · by_cases hcmp : ∃ a b, i = .cmp a b
    · obtain ⟨a, b, rfl⟩ := hcmp
      exact exec_cmp_withFlags g h
    · exact ⟨_, exec_unseen (unseen_withFlags g) (fun a b heq => hcmp ⟨a, b, heq⟩) hE (fun _ _ => trivial)
        (fun _ _ => trivial) h, rfl⟩

end Sys2Proof.Machine

/-! ## PUSH and POP (43_stack.md) -/

namespace Sys2Proof.Machine

open Sys2Proof.Claims

/-- What a successful checked read says. -/
theorem memRead_ok {s : State} {a : Nat} {b : Byte} (h : memRead s a = .ok b) :
    a < 256 ∧ b = Memory.peek s.mem a := by
  by_cases ha : a < 256
  · rw [memRead_of_lt ha] at h
    cases h
    exact ⟨ha, rfl⟩
  · rw [memRead_of_ge (by omega)] at h
    cases h

/-! ### PUSH -/

/-- The state after PUSH: the stack pointer decremented, and the low byte of the register, as it is after
that, stored where it points. -/
def pushed (r : Byte) (hr : r.toNat < 8) (s : State) : State :=
  { s with
    x := s.x.set 7 (pushAddress s)
    mem := Memory.poke s.mem (pushAddress s) (truncByte (s.x.set 7 (pushAddress s))[r.toNat]) }

theorem exec_push_pushed {r : Byte} {s : State} (hr : r.toNat < 8) (ha : pushAddress s < 256) :
    exec (.push r) s = .next (pushed r hr s) := by
  have hsp : setSp s (pushAddress s) = { s with x := s.x.set 7 (pushAddress s) } := by
    rw [setSp, wrap_of_lt (pushAddress_lt s)]
  rw [exec_push_ok hr ha, hsp, pushed]

/-- The stored byte is what is read at the address stored to, and nothing else in memory differs. -/
theorem memRead_pushed {r : Byte} {s : State} (hm : Memory.wf s.mem) (hr : r.toNat < 8)
    (ha : pushAddress s < 256) (a : Nat) :
    memRead (pushed r hr s) a =
      if a = pushAddress s then .ok (BitVec.ofNat 8 (pushed r hr s).x[r.toNat]) else memRead s a :=
  memRead_memWrite (s := { s with x := s.x.set 7 (pushAddress s) }) hm (memWrite_of_lt ha _) a

theorem peek_pushed {r : Byte} {s : State} (hm : Memory.wf s.mem) (hr : r.toNat < 8) (a : Nat) :
    Memory.peek (pushed r hr s).mem a =
      if a = pushAddress s then BitVec.ofNat 8 (pushed r hr s).x[r.toNat] else Memory.peek s.mem a :=
  peek_poke hm _ _ _

theorem step_push {r b2 : Byte} {s : State} (hw : s.cfg.WellFormed)
    (h : Fetches s s.cfg.opcodes.push r b2) (hr : r.toNat < 8) (ha : pushAddress s < 256) :
    step s = .next { pushed r hr s with pc := s.pc + 2 } :=
  step_fetches_advances (o := .push) hw (mem_active_of_base (by decide)) rfl h (exec_push_pushed hr ha) rfl rfl

/-- Settles O43, from the state after PUSH (`exec_push_pushed`, `memRead_pushed`), the step over it
(`step_push`) and its two errors. -/
theorem pushInstruction : Obligations.PushInstruction := by
  refine fun s r hm => ⟨rfl, fun hr ha => ?_, exec_push_invalid, exec_push_outside⟩
  exact ⟨pushed r hr s, exec_push_pushed hr ha, rfl, memRead_pushed hm hr ha,
    fun b2 hw h => step_push hw h hr ha⟩

/-- Settles O38: the next fetch reads the memory after PUSH (`peek_pushed`), two bytes further on. -/
theorem nextFetchSeesThePushedByte : Obligations.NextFetchSeesThePushedByte := by
  intro s r b2 hr hw hm h ha
  have ⟨hs, _, _, _, hlast⟩ := h
  obtain ⟨hpc, -⟩ := memRead_ok hlast
  refine ⟨_, step_push hw h hr ha, hs, fun hin => ?_, fun hout => ?_⟩
  · exact ⟨_, _, _, fetch_inside hin, peek_pushed hm hr _, peek_pushed hm hr _, peek_pushed hm hr _⟩
  · obtain hend | hend : s.pc = 252 ∨ s.pc = 253 := by omega
    · rw [fetch_third (show s.pc + 2 + 1 < 256 by omega) hout]
      simp only [hend]
    · rw [fetch_second (show s.pc + 2 < 256 by omega) (show 256 ≤ s.pc + 2 + 1 by omega)]
      simp only [hend]

/-! ### POP -/

theorem exec_pop_byte {r b : Byte} {s : State} (hw : 8 ≤ s.cfg.wordBits) (hr : r.toNat < 8)
    (hb : memRead s s.x[7] = .ok b) :
    exec (.pop r) s = .next { s with
      x := (s.x.set r.toNat b.toNat).set 7
        ((if r.toNat = 7 then b.toNat + 1 else s.x[7] + 1) % 2 ^ s.cfg.wordBits) } := by
  obtain ⟨ha, rfl⟩ := memRead_ok hb
  have hpopped : popped r hr s = { s with x := s.x.set r.toNat (Memory.peek s.mem s.x[7]).toNat } := by
    rw [popped, wrap_zext hw, sp]
  rw [exec_pop_ok hr ha, hpopped]
  simp only [setSp, sp, Vector.getElem_set, wrap]
  split <;> rfl

/-- Settles O44, from what POP makes of the registers (`exec_pop_byte`), the step over it and its two errors. -/
theorem popInstruction : Obligations.PopInstruction := by
  refine fun s r hwidth => ⟨fun b hr hb => ⟨exec_pop_byte hwidth hr hb, fun b2 hw h => ?_⟩,
    exec_pop_outside, fun ha hr => exec_pop_invalid hr ha⟩
  exact step_fetches_advances (o := .pop) hw (mem_active_of_base (by decide)) rfl h
    (exec_pop_byte hwidth hr hb) rfl rfl

/-! ### The round trip -/

/-- Incrementing the decremented stack pointer gives the stack pointer. -/
theorem pushAddress_succ {s : State} (h : s.x[7] < 2 ^ s.cfg.wordBits) :
    (pushAddress s + 1) % 2 ^ s.cfg.wordBits = s.x[7] := by
  have hpos := Nat.two_pow_pos s.cfg.wordBits
  rw [pushAddress, wrap, Nat.mod_add_mod, Nat.sub_add_cancel (by omega), Nat.add_mod_right, sp,
    Nat.mod_eq_of_lt h]

/-- A stack pointer other than 0 is decremented without wrapping. -/
theorem pushAddress_of_pos {s : State} (hpos : 1 ≤ s.x[7]) (h : s.x[7] < 2 ^ s.cfg.wordBits) :
    pushAddress s = s.x[7] - 1 := by
  have hsum : sp s + 2 ^ s.cfg.wordBits - 1 = s.x[7] - 1 + 2 ^ s.cfg.wordBits := by
    rw [sp]
    omega
  rw [pushAddress, wrap, hsum, Nat.add_mod_right, Nat.mod_eq_of_lt (by omega)]

/-- Settles O45: POP reads the byte that PUSH stored, which is the value of the register since it fits a byte,
and increments the stack pointer that PUSH decremented (`pushAddress_succ`). -/
theorem pushPopRoundTrip : Obligations.PushPopRoundTrip := by
  intro s r hr hm hx hwidth hfits
  have hsp : s.x[7] < 2 ^ s.cfg.wordBits := hx 7
  have hxr : s.x[r.toNat] < 2 ^ s.cfg.wordBits := hx ⟨r.toNat, hr⟩
  have ha : pushAddress s < 256 := by
    obtain hw | ⟨hpos, hle, -⟩ := hfits
    · have hlt := pushAddress_lt s
      rw [hw] at hlt
      exact hlt
    · rw [pushAddress_of_pos hpos hsp]
      omega
  have hread : memRead (pushed r hr s) (pushed r hr s).x[7] =
      .ok (BitVec.ofNat 8 (pushed r hr s).x[r.toNat]) := by
    rw [memRead_pushed hm hr ha, pushed, Vector.getElem_set_self, if_pos rfl]
  refine ⟨_, exec_push_pushed hr ha, ?_⟩
  rw [exec_pop_byte (s := pushed r hr s) hwidth hr hread]
  simp only [pushed, Vector.getElem_set_self, BitVec.toNat_ofNat]
  by_cases hr7 : r.toNat = 7
  · simp only [hr7, if_true, Vector.getElem_set_self, Nat.mod_eq_of_lt ha, pushAddress_succ hsp,
      Vector.set_set, Vector.set_getElem_self]
  · have hbyte : s.x[r.toNat] < 256 := by
      obtain hw | ⟨-, -, hlt | heq⟩ := hfits
      · rw [hw] at hxr
        exact hxr
      · exact hlt
      · exact absurd heq hr7
    have hkeep : (s.x.set 7 (pushAddress s))[r.toNat] = s.x[r.toNat] :=
      Vector.getElem_set_ne (by decide) hr (Ne.symm hr7)
    simp only [hr7, if_false, hkeep, Nat.mod_eq_of_lt hbyte, pushAddress_succ hsp,
      Vector.set_comm _ _ (Ne.symm hr7), Vector.set_getElem_self, Vector.set_set]

end Sys2Proof.Machine

/-! ## CMP, JEQ and JNE (44_compare_branch.md) -/

namespace Sys2Proof.Machine

open Sys2Proof.Claims

/-- Settles O46, from what CMP makes of the flags, the step over it, and its two errors. -/
theorem compareInstruction : Obligations.CompareInstruction := by
  refine fun s a b => ⟨fun ha hb => ?_, exec_cmp_left, exec_cmp_right⟩
  refine ⟨_, exec_cmp_ok ha hb, flagL_compareFlags _ _, flagE_compareFlags _ _, flagG_compareFlags _ _, ?_,
    fun hw h => ?_⟩
  · obtain h | h | h := compareFlags_legal s.x[a.toNat] s.x[b.toNat] <;> rw [h] <;> decide
  · exact step_fetches_advances (o := .cmp) hw (mem_active_of_base (by decide)) rfl h
      (exec_cmp_ok ha hb) rfl rfl

/-- A step on the byte of a jump is its handler's outcome, an error taken or not (40_engine.md R104, R107). -/
theorem step_fetches_jump {s t : State} {o : Opcode} {b1 b2 : Byte} (hw : s.cfg.WellFormed)
    (ho : o ∈ s.cfg.active) (hj : o.isJump = true)
    (h : Fetches s (s.cfg.opcodes.byteOf o) b1 b2) (he : exec (assemble o b1 b2) s = .next t) :
    step s = .next t := by
  obtain hstate | hfaulted := exec_state he
  · refine step_fetches_jumps hw ho hj h he hstate ((exec_halt he).resolve_right fun hhlt => ?_)
    have hop : o = .hlt := (opcode_assemble o b1 b2).symm.trans (congrArg Instr.opcode hhlt)
    rw [hop] at hj
    cases hj
  · obtain ⟨-, -, hdis, -, -, -⟩ := hw
    obtain ⟨hs, -, h0, h1, h2⟩ := h
    exact step_faulting hs (fetch_of_reads h0 h1 h2) (decode_byteOf hdis ho b1 b2) he hfaulted

/-- Settles O48, from the jump that is taken when E is set, and falls through when it is clear. -/
theorem jumpIfEqualInstruction : Obligations.JumpIfEqualInstruction := by
  intro s r
  have hform {taken : Bool} (hE : flagE s.fl = taken) : jumpForm s (.jeq r) = some (taken, r) := by
    rw [jumpForm, hE]
  exact ⟨fun hr hE => exec_jump_taken_ok (hform hE) hr, fun hr hE => exec_jump_taken_invalid (hform hE) hr,
    fun hE => exec_jump_falls (hform hE),
    fun _ _ hw h => step_fetches_jump (o := .jeq) hw (mem_active_of_base (by decide)) rfl h⟩

/-- Settles O49, from the jump that is taken when E is clear, and falls through when it is set. -/
theorem jumpIfNotEqualInstruction : Obligations.JumpIfNotEqualInstruction := by
  intro s r
  have hform {e : Bool} (hE : flagE s.fl = e) : jumpForm s (.jne r) = some (!e, r) := by
    rw [jumpForm, hE]
  exact ⟨fun hr hE => exec_jump_taken_ok (hform hE) hr, fun hr hE => exec_jump_taken_invalid (hform hE) hr,
    fun hE => exec_jump_falls (hform hE),
    fun _ _ hw h => step_fetches_jump (o := .jne) hw (mem_active_of_base (by decide)) rfl h⟩

end Sys2Proof.Machine

/-! ## The profile ALU_EXT (45_alu_extension.md) -/

namespace Sys2Proof.Machine

open Sys2Proof.Claims

/-- Under the profile a two-operand instruction writes the ALU's value when it is in range. -/
theorem exec_aluTwo_ext {i : Instr} {op : AluOp} {a b : Byte} {s : State}
    (hi : aluTwoForm i = some (op, a, b)) (hext : s.cfg.aluExt = true) (ha : a.toNat < 8) (hb : b.toNat < 8)
    (hv : aluValue s.cfg.wordBits op s.x[a.toNat] s.x[b.toNat] < 2 ^ s.cfg.wordBits) :
    exec i s = .next { s with
      x := s.x.set a.toNat (aluValue s.cfg.wordBits op s.x[a.toNat] s.x[b.toNat]) } := by
  rw [exec_aluTwo hi, aluTwo_ok ha hb (supported_of_ext hext op), commit_ok, wrap_of_lt hv]

theorem exec_not_ext {r : Byte} {s : State} (hext : s.cfg.aluExt = true) (hr : r.toNat < 8) :
    exec (.not r) s = .next { s with x := s.x.set r.toNat (2 ^ s.cfg.wordBits - 1 - s.x[r.toNat]) } := by
  have hv : 2 ^ s.cfg.wordBits - 1 - s.x[r.toNat] < 2 ^ s.cfg.wordBits := by
    have hpos := Nat.two_pow_pos s.cfg.wordBits
    omega
  rw [exec, execNot, aluOne_ok hr (supported_of_ext hext .not), commit_ok, aluValue, wrap_of_lt hv]

/-- The non-negative remainder of a difference is in range, and gives the minuend back mod m. -/
theorem sub_emod_toNat_spec (u v : Nat) {m : Nat} (hm : 0 < m) :
    (((u : Int) - v) % m).toNat < m ∧ ((((u : Int) - v) % m).toNat + v) % m = u % m := by
  have hpos : (0 : Int) < m := by exact_mod_cast hm
  have hval : ((((u : Int) - v) % m).toNat : Int) = ((u : Int) - v) % m :=
    Int.toNat_of_nonneg (Int.emod_nonneg _ hpos.ne')
  constructor
  · zify
    rw [hval]
    exact Int.emod_lt_of_pos _ hpos
  · zify
    rw [hval, Int.emod_add_emod, Int.sub_add_cancel]

/-- Settles O50, from the ALU's sum and the remainder of its difference (`sub_emod_toNat_spec`). -/
theorem addSubInstructions : Obligations.AddSubInstructions := by
  intro s a b ha hb hext
  have hpos := Nat.two_pow_pos s.cfg.wordBits
  obtain ⟨hlt, hspec⟩ := sub_emod_toNat_spec s.x[a.toNat] s.x[b.toNat] hpos
  exact ⟨exec_aluTwo_ext (op := .add) rfl hext ha hb (Nat.mod_lt _ hpos),
    _, exec_aluTwo_ext (op := .sub) rfl hext ha hb hlt, hlt, hspec⟩

/-- Settles O51: the bitwise operations stay in range, and complementing is subtracting from 2^W - 1. -/
theorem logicInstructions : Obligations.LogicInstructions := by
  intro s a b ha hb hext hx
  have hxa : s.x[a.toNat] < 2 ^ s.cfg.wordBits := hx ⟨a.toNat, ha⟩
  have hxb : s.x[b.toNat] < 2 ^ s.cfg.wordBits := hx ⟨b.toNat, hb⟩
  have hand := exec_aluTwo_ext (op := .and) (i := .and a b) rfl hext ha hb (Nat.and_lt_two_pow _ hxb)
  have hor := exec_aluTwo_ext (op := .or) (i := .or a b) rfl hext ha hb (Nat.or_lt_two_pow hxa hxb)
  have hxor := exec_aluTwo_ext (op := .xor) (i := .xor a b) rfl hext ha hb (Nat.xor_lt_two_pow hxa hxb)
  refine ⟨⟨_, hand, fun k => Nat.testBit_and _ _ _⟩, ⟨_, hor, fun k => Nat.testBit_or _ _ _⟩,
    ⟨_, hxor, fun k => Nat.testBit_xor _ _ _⟩, ⟨_, exec_not_ext hext ha, fun k => ?_⟩⟩
  rw [Nat.sub_sub, Nat.add_comm 1]
  exact Nat.testBit_two_pow_sub_succ hxa k

/-- Settles O52: a left shift of W or more is a multiple of 2^W, a right shift of W or more divides by more than
the value. -/
theorem shiftInstructions : Obligations.ShiftInstructions := by
  intro s a b ha hb hext hx
  have hxa : s.x[a.toNat] < 2 ^ s.cfg.wordBits := hx ⟨a.toNat, ha⟩
  have hshl := exec_aluTwo_ext (op := .shl) (i := .shl a b) rfl hext ha hb (Nat.mod_lt _ (Nat.two_pow_pos _))
  have hshr := exec_aluTwo_ext (op := .shr) (i := .shr a b) rfl hext ha hb
    (Nat.lt_of_le_of_lt (Nat.div_le_self _ _) hxa)
  refine ⟨⟨_, hshl, rfl, fun hw => ?_⟩, ⟨_, hshr, rfl, fun hw => ?_⟩⟩
  · exact Nat.mod_eq_zero_of_dvd (Dvd.dvd.mul_left (Nat.pow_dvd_pow 2 hw) _)
  · exact Nat.div_eq_of_lt (Nat.lt_of_lt_of_le hxa (Nat.pow_le_pow_right (by decide) hw))

/-- Settles O53: the instructions of the profile check their indices as every ALU instruction does, and are
neither jumps nor HLT, so a step on one that faults not only moves the pc past its encoding. -/
theorem extensionFaultsAndAdvance : Obligations.ExtensionFaultsAndAdvance := by
  refine ⟨fun s i a b hi => ?_, fun s r => exec_not_invalid, fun s t i b1 b2 hw hext h hd he ht => ?_⟩
  · obtain ⟨op, hform⟩ : ∃ op, aluTwoForm i = some (op, a, b) := by
      simp only [List.mem_cons, List.not_mem_nil, or_false] at hi
      obtain rfl | rfl | rfl | rfl | rfl | rfl | rfl := hi <;> exact ⟨_, rfl⟩
    exact ⟨exec_aluTwo_left hform, exec_aluTwo_right hform⟩
  · have hkinds : ∀ o ∈ extOpcodes, o.isJump = false ∧ o ≠ .hlt := by decide
    obtain ⟨hj, hne⟩ := hkinds _ hext
    obtain ⟨hactive, -⟩ := decode_opcode hd
    have ⟨_, _, hdis, _, _, _⟩ := hw
    have hasm : assemble i.opcode b1 b2 = i :=
      Except.ok.inj ((decode_byteOf hdis hactive b1 b2).symm.trans hd)
    have hhalt : t.halt = s.halt :=
      (exec_halt he).resolve_right fun hhlt => hne (congrArg Instr.opcode hhlt)
    have hstate : t.state = s.state := (exec_state he).resolve_right ht
    rw [step_fetches_advances hw hactive hj h (hasm.symm ▸ he) hstate hhalt, encode, List.length_cons,
      operandBytes_length, Nat.add_assoc]

end Sys2Proof.Machine

/-! ## Loading and output (70_reset_and_hazards.md R263, R265; 41_load_print.md R123) -/

namespace Sys2Proof.Machine

open Sys2Proof.Claims

/-! ### load_program -/

/-- Settles O54, from what memory holds after placing the bytes (`peek_place`), and the error of an overflow. -/
theorem loadProgramPlacesTheBytes : Obligations.LoadProgramPlacesTheBytes := by
  refine fun s bytes start hm => ⟨fun hfit => ?_,
    fun hover => ⟨_, Nat.le_max_right _ _, loadProgram_overflows hover s⟩⟩
  refine ⟨_, loadProgram_fits hfit s, rfl, place_wf hm start bytes, fun i hi => ?_, fun a ha => ?_⟩
  · rw [memRead_of_lt (by omega), peek_place hm hfit, if_pos ⟨by omega, by omega⟩, Nat.add_sub_cancel_left,
      List.getD_eq_getElem _ _ hi]
  · have hout : ¬(start ≤ a ∧ a < start + bytes.length) := by omega
    simp only [memRead, peek_place hm hfit, if_neg hout]

/-! ### The lines of a program image -/

/-- Blanks before the text of a line do not matter. -/
theorem readLine_blank_append {pre : List Char} (h : pre.all isBlankChar = true) (l : List Char) :
    readLine (pre ++ l) = readLine l := by
  have hsolid : ∀ c ∈ pre, (c != '#') = true := fun c hc => blank_ne_hash (List.all_eq_true.1 h c hc)
  simp only [readLine, dropComment_append hsolid, trimBlank_append h]

/-- What the loader keeps of the end of a line: comment and trailing blanks are dropped (R265, step 2). -/
def textAfter (rest : List Char) : List Char := ((dropComment rest).reverse.dropWhile isBlankChar).reverse

theorem textAfter_prefix (rest : List Char) : textAfter rest <+: rest := by
  have htrim : textAfter rest <+: dropComment rest := by
    rw [textAfter, ← List.reverse_suffix, List.reverse_reverse]
    exact List.dropWhile_suffix _
  exact htrim.trans (List.takeWhile_prefix _)

/-- The text of a line that begins with characters neither blank nor a comment mark. -/
theorem trimBlank_dropComment_solid {l : List Char} (hne : l ≠ [])
    (h : ∀ c ∈ l, isBlankChar c = false ∧ (c != '#') = true) (rest : List Char) :
    trimBlank (dropComment (l ++ rest)) = l ++ textAfter rest := by
  rw [dropComment_append (fun c hc => (h c hc).2), trimBlank_solid hne (fun c hc => (h c hc).1), textAfter]

theorem readLine_byte {line text : List Char} (htext : trimBlank (dropComment line) = text)
    (hlen : 8 ≤ text.length) (hdigits : (text.take 8).all isBinaryDigit = true) :
    readLine line = .byte (BitVec.ofNat 8 (binaryValue (text.take 8))) := by
  have hne : text ≠ [] := by
    rintro rfl
    cases hlen
  simp only [readLine, htext, if_neg hne, hlen, hdigits, decide_true, Bool.and_self, if_true]

theorem readLine_malformed {line text : List Char} (htext : trimBlank (dropComment line) = text)
    (hne : text ≠ []) (hbad : 8 ≤ text.length → (text.take 8).all isBinaryDigit = false) :
    readLine line = .malformed := by
  have hcond : (decide (8 ≤ text.length) && (text.take 8).all isBinaryDigit) = false := by
    by_cases hlen : 8 ≤ text.length
    · rw [hbad hlen, Bool.and_false]
    · rw [decide_eq_false hlen, Bool.false_and]
  simp only [readLine, htext, if_neg hne, hcond, Bool.false_eq_true, if_false]

theorem binaryDigits_all (b : Byte) : ∀ c ∈ binaryDigits b, isBinaryDigit c = true := by
  intro c hc
  obtain ⟨k, -, rfl⟩ := List.mem_map.1 hc
  cases b.getLsbD k <;> rfl

/-- Reading the digits of a byte gives the byte, for each of the 256. -/
theorem binaryValue_binaryDigits : ∀ b : Byte, binaryValue (binaryDigits b) = b.toNat := by decide

theorem readLine_binaryDigits (b : Byte) (rest : List Char) :
    readLine (binaryDigits b ++ rest) = .byte b := by
  have hsolid := fun c hc => binaryDigit_solid (binaryDigits_all b c hc)
  have htext := trimBlank_dropComment_solid (l := binaryDigits b) (List.cons_ne_nil _ _) hsolid rest
  have htake : (binaryDigits b ++ textAfter rest).take 8 = binaryDigits b := List.take_left' rfl
  rw [readLine_byte htext (by rw [List.length_append]; exact Nat.le_add_right 8 _)
    (by rw [htake]; exact List.all_eq_true.2 (binaryDigits_all b)), htake, binaryValue_binaryDigits,
    BitVec.ofNat_toNat, BitVec.setWidth_eq]

/-- A line that begins with a character which is no blank, comment mark or binary digit. -/
theorem readLine_other {c : Char} (hblank : isBlankChar c = false) (hhash : c ≠ '#')
    (hdigit : isBinaryDigit c = false) (rest : List Char) : readLine (c :: rest) = .malformed := by
  have hsolid : ∀ d ∈ [c], isBlankChar d = false ∧ (d != '#') = true := by
    simpa using ⟨hblank, hhash⟩
  refine readLine_malformed (trimBlank_dropComment_solid (List.cons_ne_nil _ _) hsolid rest)
    (List.cons_ne_nil _ _) fun _ => ?_
  rw [List.singleton_append, List.take_succ_cons, List.all_cons, hdigit, Bool.false_and]

/-- A line whose binary digits end before the eighth: the eighth character of its text is missing, or one of the
eight is the character after the digits. -/
theorem readLine_few_digits {digits rest : List Char} (hdigits : digits.all isBinaryDigit = true)
    (hpos : 1 ≤ digits.length) (hfew : digits.length ≤ 7) (hrest : rest.head?.any isBinaryDigit = false) :
    readLine (digits ++ rest) = .malformed := by
  have hne : digits ≠ [] := List.ne_nil_of_length_pos hpos
  have hsolid := fun c hc => binaryDigit_solid (List.all_eq_true.1 hdigits c hc)
  refine readLine_malformed (trimBlank_dropComment_solid hne hsolid rest)
    (List.append_ne_nil_of_left_ne_nil hne _) fun hlen => ?_
  obtain ⟨tl, htl⟩ := textAfter_prefix rest
  cases htext : textAfter rest with
  | nil =>
    rw [htext, List.append_nil] at hlen
    omega
  | cons c cs =>
    have hc : isBinaryDigit c = false := by
      rw [← htl, htext] at hrest
      exact hrest
    obtain ⟨n, hn⟩ : ∃ n, 8 - digits.length = n + 1 := ⟨7 - digits.length, by omega⟩
    rw [List.take_append, List.all_append, hn, List.take_succ_cons, List.all_cons, hc, Bool.false_and,
      Bool.and_false]

/-- Settles O55: blanks before the text do not matter, and each kind of text is read by its own lemma. -/
theorem programImageLines : Obligations.ProgramImageLines := by
  intro pre rest hpre
  refine ⟨fun b => ?_, ?_, ?_, fun c hblank hhash hdigit => ?_, fun digits hdigits hpos hfew hrest => ?_⟩
  · rw [List.append_assoc, readLine_blank_append hpre, readLine_binaryDigits]
  · rw [← List.append_nil pre, readLine_blank_append hpre]
    rfl
  · rw [readLine_blank_append hpre]
    rfl
  · rw [readLine_blank_append hpre, readLine_other hblank hhash hdigit]
  · rw [List.append_assoc, readLine_blank_append hpre, readLine_few_digits hdigits hpos hfew hrest]

/-! ### Whole program images -/

/-- Lines without a line feed, joined by line feeds, are cut into the same lines. -/
theorem splitLines_intercalate {lines : List (List Char)} (hne : lines ≠ []) (h : ∀ l ∈ lines, '\n' ∉ l) :
    splitLines (List.intercalate ['\n'] lines) = lines := by
  induction lines with
  | nil => exact absurd rfl hne
  | cons l ls ih =>
    have hl := h l List.mem_cons_self
    cases ls with
    | nil => rw [List.intercalate_singleton, splitLines_line hl]
    | cons m ls =>
      rw [List.intercalate_cons_cons, List.append_assoc, List.singleton_append, splitLines_append hl,
        ih (List.cons_ne_nil _ _) fun d hd => h d (List.mem_cons_of_mem _ hd)]

/-- Lines of which none is malformed, or all lines by default, give the bytes of the valid ones in order. -/
theorem readLines_ok {strict : Bool} {lines : List (List Char)}
    (h : strict = true → ∀ l ∈ lines, readLine l ≠ .malformed) (n : Nat) :
    readLines strict n lines = .ok (lines.filterMap lineByte) := by
  induction lines generalizing n with
  | nil => rfl
  | cons l ls ih =>
    have ih := ih (fun hs d hd => h hs d (List.mem_cons_of_mem _ hd)) (n + 1)
    cases hl : readLine l with
    | skipped => simp only [readLines, hl, ih, List.filterMap_cons, lineByte]
    | byte b => simp only [readLines, hl, ih, List.filterMap_cons, lineByte, Except.map]
    | malformed =>
      have hstrict : strict ≠ true := fun hs => h hs l List.mem_cons_self hl
      simp only [readLines, hl, if_neg hstrict, ih, List.filterMap_cons, lineByte]

/-- The strict policy rejects the image at its first malformed line. -/
theorem readLines_strict_malformed {before after : List (List Char)} {bad : List Char}
    (h : ∀ l ∈ before, readLine l ≠ .malformed) (hbad : readLine bad = .malformed) (n : Nat) :
    readLines true n (before ++ bad :: after) = .error (.malformedProgramLine (n + before.length)) := by
  induction before generalizing n with
  | nil => simp only [List.nil_append, readLines, hbad, if_true, List.length_nil, Nat.add_zero]
  | cons l ls ih =>
    have ih := ih (fun d hd => h d (List.mem_cons_of_mem _ hd)) (n + 1)
    rw [Nat.add_right_comm, Nat.add_assoc] at ih
    cases hl : readLine l with
    | skipped => simp only [List.cons_append, readLines, hl, ih, List.length_cons]
    | byte b => simp only [List.cons_append, readLines, hl, ih, List.length_cons, Except.map]
    | malformed => exact absurd hl (h l List.mem_cons_self)

/-- Settles O57: the text is cut into its lines (`splitLines_intercalate`), which are read in order
(`readLines_ok`) up to the first malformed one under the strict policy (`readLines_strict_malformed`). -/
theorem programImageIsReadInOrder : Obligations.ProgramImageIsReadInOrder := by
  intro lines hne hlines
  simp only [readImage, splitLines_intercalate hne hlines]
  refine ⟨readLines_ok (strict := false) (fun h => nomatch h) 0,
    fun hvalid => readLines_ok (fun _ => hvalid) 0, ?_⟩
  rintro before after bad rfl hvalid hbad
  rw [readLines_strict_malformed hvalid hbad, Nat.zero_add]

/-! ### Output -/

/-- A positive number is written without a leading zero: by induction on the number, its digits are those of its
tenth part and one more. -/
theorem head?_toDigits_ne_zero {v : Nat} (hv : v ≠ 0) : (Nat.toDigits 10 v).head? ≠ some '0' := by
  induction v using Nat.strongRecOn with
  | ind v ih =>
    by_cases hlt : v < 10
    · have hdigit : ∀ d < 10, d ≠ 0 → Nat.digitChar d ≠ '0' := by decide
      rw [Nat.toDigits_of_lt_base hlt, List.head?_cons]
      exact fun h => hdigit v hlt hv (Option.some.inj h)
    · rw [Nat.toDigits_of_base_le (by decide) (by omega), List.head?_append_of_ne_nil _ Nat.toDigits_ne_nil]
      exact ih (v / 10) (by omega) (by omega)

/-- Settles O56, from the library's lemmas on decimal digits and `head?_toDigits_ne_zero`. -/
theorem outputIsRenderedInDecimal : Obligations.OutputIsRenderedInDecimal := by
  intro v
  refine ⟨Nat.toDigits 10 v, rfl, ?_, Nat.ofDigitChars_toDigits (by decide) (by decide), fun hlen => ?_,
    Nat.toDigits_ne_nil⟩
  · exact List.all_eq_true.2 fun c hc => Nat.isDigit_of_mem_toDigits (by decide) (by decide) hc
  · refine head?_toDigits_ne_zero fun hv => ?_
    subst hv
    exact absurd hlen (by decide)

end Sys2Proof.Machine
